-- ==== Sys2Proof/Word.lean ====
section
/-! DEFINITION. The word types of the block: the W-bit register word (R8, R18) and the narrow fields that the
spec numbers bit by bit. -/

namespace Sys2Proof

/-- A W-bit two's complement field (R8, R18); `BitVec.toInt` is the spec's `sext_W`, `BitVec.ofInt` writes an
integer as W-bit two's complement. -/
abbrev Word (w : Nat) := BitVec w

/-- A 6-bit entry of the transition table (R29). -/
abbrev Entry := BitVec 6

/-- A 3-bit code of the automaton state (R17). -/
abbrev StateCode := BitVec 3

/-- The 2-bit field `{ccw, cw}` of DIR_OUT and `dir_o` (R20). -/
abbrev DirBits := BitVec 2

/-- The 4-bit event code EV[3:0] (R48). -/
abbrev EventCode := BitVec 4

/-- The integer fits in `w` signed bits: `-2^(w-1) <= v < 2^(w-1)` (R8), written without a division. -/
def fitsSigned (w : Nat) (v : Int) : Bool :=
  decide (-(2 : Int) ^ w ≤ 2 * v) && decide (2 * v < (2 : Int) ^ w)

end Sys2Proof
end

