-- ==== Sys2Proof/Config.lean ====
section
/-! DEFINITION. The parameters of the block (R6, R7, R24): the configuration record CFG, the transition table TT as
plain data, and the reasons for which a configuration is refused at construction (R26). Every parameter is a field of
a record, so that a statement ranges over all of them; the block has no other implementation constant and no free
value. -/

namespace Sys2Proof

/-- The five reasons of the construction check (R26, R95). -/
inductive ConfigReason where
  | minGtMax
  | policyReserved
  | incrRange
  | width
  | ttMalformed
  deriving DecidableEq, Repr

/-- The three range policies (R24, R25). -/
inductive Policy where
  | unbounded
  | wrap
  | bounded
  deriving DecidableEq, Repr

/-- The configuration record of a block that has been built (R24). -/
structure Cfg where
  /-- the width W of VALUE, MIN, MAX, INCR and the SET operand (R7) -/
  w : Nat
  policy : Policy
  min : Word w
  max : Word w
  /-- the increment magnitude, unsigned (R24) -/
  incr : Word w
  /-- rotation-sense inversion (R11, R24) -/
  reverse : Bool
  deriving DecidableEq, Repr

/-- One row of the transition table: the entries for the samples 00, 01, 10 and 11 (R28, R58). -/
structure Row where
  x00 : Entry
  x01 : Entry
  x10 : Entry
  x11 : Entry
  deriving DecidableEq, Repr

/-- The transition-table ROM: one row for each automaton state, 8 x 4 entries of 6 bits (R28, R34). -/
structure Table where
  start : Row
  cw1 : Row
  cw2 : Row
  cw3 : Row
  ccw1 : Row
  ccw2 : Row
  ccw3 : Row
  illegal : Row
  deriving DecidableEq, Repr

/-- What is supplied at construction (R6, R24, R72): CFG with POLICY still its 2-bit code, and the table. -/
structure Supplied where
  w : Nat
  policy : BitVec 2
  min : Word w
  max : Word w
  incr : Word w
  reverse : Bool
  tt : Table
  deriving DecidableEq, Repr

/-- The default of W (R7, D4). -/
def defaultWidth : Nat := 32

end Sys2Proof
end

