-- ==== Sys2Proof/Syntax.lean ====
section
/-! DEFINITION. The event set QDEC-EV1 (R3, R48, R51): the two agents, the pin sample, and one constructor of
`Instr` for each row of spec/opcode_table.json. -/

namespace Sys2Proof

/-- The two sources of events (R12, R103). -/
inductive Agent where
  | sampleSource
  | host
  deriving DecidableEq, Repr

/-- A pin sample `{CLK_level, DT_level}` (R49); a level is true when the pin is at its high logic level. -/
structure PinSample where
  clk : Bool
  dt : Bool
  deriving DecidableEq, Repr

/-- The events, one constructor per row of spec/opcode_table.json. The arguments of the two reserved rows are the
bits of the code that the row leaves free. -/
inductive Instr where
  /-- `00xx`, R64. -/
  | sample (x : PinSample)
  /-- `01xx`, R52: reserved code of format S. -/
  | reservedS (x : BitVec 2)
  /-- `1000`, R83. -/
  | nop
  /-- `1001`, R78. -/
  | read
  /-- `1010`, R79. -/
  | angle
  /-- `1011`, R80. -/
  | reset
  /-- `1100` with the operand `v`, R81; `v` is the integer `sext_W` of the operand field (R50). -/
  | set (v : Int)
  /-- `1101`, R82. -/
  | state
  /-- `111x`, R52: reserved code of format H. -/
  | reservedH (x : BitVec 1)
  deriving DecidableEq, Repr

end Sys2Proof
end

