-- ==== Sys2Proof/WellFormed.lean ====
section
/-! DEFINITION. Which events can be written down in a block of width W: the SET operand fits in signed W bits
(R50, R56); no other event has an operand. -/

namespace Sys2Proof

/-- The event is one that a block of width `w` can be given. -/
def WellFormed (w : Nat) : Instr → Bool
  | .sample _ => true
  | .reservedS _ => true
  | .nop => true
  | .read => true
  | .angle => true
  | .reset => true
  | .set v => fitsSigned w v
  | .state => true
  | .reservedH _ => true

end Sys2Proof
end

