-- ==== Sys2Proof/Decode.lean ====
section
/-! DEFINITION. Event words and their decoding (R48 to R54), the encoder written from the same table (R51), and the
reading of an event word from a number. -/

namespace Sys2Proof

/-- The 2-bit pin sample of two levels: `x[1] = CLK_level`, `x[0] = DT_level` (R49). -/
def PinSample.bits (x : PinSample) : BitVec 2 :=
  BitVec.ofBool x.clk ++ BitVec.ofBool x.dt

/-- The two pin levels of a 2-bit pin sample (R49). -/
def PinSample.ofBits (x : BitVec 2) : PinSample :=
  { clk := x.getLsbD 1, dt := x.getLsbD 0 }

/-- An event at the transaction level (R48): the 4-bit code, and the W-bit operand where one is present. -/
structure EventWord (w : Nat) where
  code : EventCode
  operand : Option (Word w)
  deriving DecidableEq, Repr

/-- Why an event word is no event of R48. -/
inductive DecodeError where
  /-- the code is SET's and no operand follows -/
  | missingOperand
  /-- an operand follows a code that has none -/
  | strayOperand
  deriving DecidableEq, Repr

/-- The SET code, the only one that an operand follows (R48). -/
def setCode : EventCode := 0b1100#4

/-- The event of a code that has no operand (R51); `none` for SET's code. -/
def decodeCode (c : EventCode) : Option Instr :=
  if c.extractLsb' 2 2 = 0b00#2 then some (.sample (PinSample.ofBits (c.extractLsb' 0 2)))
  else if c.extractLsb' 2 2 = 0b01#2 then some (.reservedS (c.extractLsb' 0 2))
  else if c = 0b1000#4 then some .nop
  else if c = 0b1001#4 then some .read
  else if c = 0b1010#4 then some .angle
  else if c = 0b1011#4 then some .reset
  else if c = setCode then none
  else if c = 0b1101#4 then some .state
  else some (.reservedH (c.extractLsb' 0 1))

/-- The event of an event word (R51, R53); a word with its operand misplaced is rejected by name (R48). -/
def decode {w : Nat} (e : EventWord w) : Except DecodeError Instr :=
  match decodeCode e.code, e.operand with
  | some i, none => .ok i
  | some _, some _ => .error .strayOperand
  | none, some v => .ok (.set v.toInt)
  | none, none => .error .missingOperand

/-- The 4-bit code of an event (R51). -/
def encodeCode : Instr → EventCode
  | .sample x => 0b00#2 ++ x.bits
  | .reservedS x => 0b01#2 ++ x
  | .nop => 0b1000#4
  | .read => 0b1001#4
  | .angle => 0b1010#4
  | .reset => 0b1011#4
  | .set _ => setCode
  | .state => 0b1101#4
  | .reservedH x => 0b111#3 ++ x

/-- The operand of an event in a block of width `w`: SET alone has one (R48, R50). -/
def encodeOperand (w : Nat) : Instr → Option (Word w)
  | .sample _ => none
  | .reservedS _ => none
  | .nop => none
  | .read => none
  | .angle => none
  | .reset => none
  | .set v => some (BitVec.ofInt w v)
  | .state => none
  | .reservedH _ => none

/-- The event word of an event in a block of width `w` (R48, R51). -/
def encode (w : Nat) (i : Instr) : EventWord w :=
  { code := encodeCode i, operand := encodeOperand w i }

/-- The agent that issues an event word: format S (`EV[3] = 0`) is the sample source's, format H the host's
(R48, R103). -/
def EventWord.agent {w : Nat} (e : EventWord w) : Agent :=
  if e.code.getLsbD 3 then .host else .sampleSource

/-- The event word is a SAMPLE: `EV[3:2] = 00` (R51). -/
def EventWord.isSample {w : Nat} (e : EventWord w) : Bool :=
  e.code.extractLsb' 2 2 == 0b00#2

/-- The event word in the low bits of a number: the code in bits 3..0, the operand from bit 4 on (log 8, DESIGN
CHOICE). Bits above `nbits` count as zero; where they are zero and the code is not SET's, no operand is present. -/
def EventWord.ofNat (w nbits n : Nat) : EventWord w :=
  let m := n % 2 ^ nbits
  let code := BitVec.ofNat 4 m
  { code := code
    operand := if code = setCode ∨ m / 16 ≠ 0 then some (BitVec.ofNat w (m / 16)) else none }

/-- The event that the decoder reads from a number laid out as `EventWord.ofNat` says, at the default width of R7
(log 8). -/
def decodeTableWord (nbits w : Nat) : Option Instr :=
  match decode (EventWord.ofNat defaultWidth nbits w) with
  | .ok i => some i
  | .error _ => none

end Sys2Proof
end

