-- ==== Sys2Proof/Machine/Table.lean ====
section
/-! DEFINITION. The automaton states and their codes (R10, R17), the fields of a table entry (R29), the read of the
transition-table ROM (R34) and the default table TT_REF (R58). -/

namespace Sys2Proof.Machine

open Sys2Proof

/-- The 8 states of the automaton (R10, R17). -/
inductive Automaton where
  | start
  | cw1
  | cw2
  | cw3
  | ccw1
  | ccw2
  | ccw3
  | illegal
  deriving DecidableEq, Repr

/-- The 3-bit code of a state (R17). -/
def Automaton.code : Automaton → StateCode
  | .start => 0b000#3
  | .cw1 => 0b001#3
  | .cw2 => 0b010#3
  | .cw3 => 0b011#3
  | .ccw1 => 0b100#3
  | .ccw2 => 0b101#3
  | .ccw3 => 0b110#3
  | .illegal => 0b111#3

/-- The state of a 3-bit code; all 8 codes name a state (R17). -/
def Automaton.ofCode (c : StateCode) : Automaton :=
  if c = 0b000#3 then .start
  else if c = 0b001#3 then .cw1
  else if c = 0b010#3 then .cw2
  else if c = 0b011#3 then .cw3
  else if c = 0b100#3 then .ccw1
  else if c = 0b101#3 then .ccw2
  else if c = 0b110#3 then .ccw3
  else .illegal

/-- NEXT, `e[2:0]` (R29). -/
def entryNext (e : Entry) : Automaton := Automaton.ofCode (e.extractLsb' 0 3)

/-- The reserved bit `e[3]` (R29). -/
def entryReserved (e : Entry) : Bool := e.getLsbD 3

/-- The entry of a row for a pin sample (R28, R49). -/
def rowRead (r : Row) (x : PinSample) : Entry :=
  match x.clk, x.dt with
  | false, false => r.x00
  | false, true => r.x01
  | true, false => r.x10
  | true, true => r.x11

/-- The row of a state (R28). -/
def tableRow (tt : Table) : Automaton → Row
  | .start => tt.start
  | .cw1 => tt.cw1
  | .cw2 => tt.cw2
  | .cw3 => tt.cw3
  | .ccw1 => tt.ccw1
  | .ccw2 => tt.ccw2
  | .ccw3 => tt.ccw3
  | .illegal => tt.illegal

/-- TTRead (R34). -/
def ttRead (tt : Table) (s : Automaton) (x : PinSample) : Entry := rowRead (tableRow tt s) x

/-- The four entries of a row in sample order. -/
def rowEntries (r : Row) : List Entry := [r.x00, r.x01, r.x10, r.x11]

/-- The flat ROM image, index `4*s + x` (R34, R58). -/
def tableImage (tt : Table) : List Entry :=
  rowEntries tt.start ++ rowEntries tt.cw1 ++ rowEntries tt.cw2 ++ rowEntries tt.cw3
    ++ rowEntries tt.ccw1 ++ rowEntries tt.ccw2 ++ rowEntries tt.ccw3 ++ rowEntries tt.illegal

/-- The default table TT_REF (R58; the spec takes its entries from general knowledge, log 2). -/
def tableRef : Table where
  start := { x00 := 0x00#6, x01 := 0x04#6, x10 := 0x01#6, x11 := 0x00#6 }
  cw1 := { x00 := 0x02#6, x01 := 0x00#6, x10 := 0x01#6, x11 := 0x00#6 }
  cw2 := { x00 := 0x02#6, x01 := 0x03#6, x10 := 0x01#6, x11 := 0x00#6 }
  cw3 := { x00 := 0x02#6, x01 := 0x03#6, x10 := 0x00#6, x11 := 0x10#6 }
  ccw1 := { x00 := 0x05#6, x01 := 0x04#6, x10 := 0x00#6, x11 := 0x00#6 }
  ccw2 := { x00 := 0x05#6, x01 := 0x04#6, x10 := 0x06#6, x11 := 0x00#6 }
  ccw3 := { x00 := 0x05#6, x01 := 0x00#6, x10 := 0x06#6, x11 := 0x20#6 }
  illegal := { x00 := 0x00#6, x01 := 0x00#6, x10 := 0x00#6, x11 := 0x00#6 }

end Sys2Proof.Machine
end

