-- ==== Sys2Proof/Machine/Flags.lean ====
section
/-! DEFINITION. The block has no status flags (R23). Its only flag-like items are the two direction bits of a table
entry (R29): this file forms the outcome from them (R63) and the DIR_OUT field from the outcome (R20). -/

namespace Sys2Proof.Machine

open Sys2Proof

/-- The direction outcome of a sample (R10). -/
inductive Direction where
  | none
  | cw
  | ccw
  deriving DecidableEq, Repr

/-- DIR_CW, `e[4]` (R29). -/
def entryDirCw (e : Entry) : Bool := e.getLsbD 4

/-- DIR_CCW, `e[5]` (R29). -/
def entryDirCcw (e : Entry) : Bool := e.getLsbD 5

/-- `Outcome(e)` (R63). -/
def outcome (e : Entry) : Direction :=
  match entryDirCw e, entryDirCcw e with
  | true, _ => .cw
  | false, true => .ccw
  | false, false => .none

/-- The entry is one that an admitted table may hold: `e[3] = 0` and at most one direction bit (R26 check 5, R60,
R72). -/
def entryAdmitted (e : Entry) : Bool := !entryReserved e && !(entryDirCw e && entryDirCcw e)

/-- The DIR_OUT encoding `{o = CCW, o = CW}` (R20, R64). -/
def dirBits (o : Direction) : DirBits :=
  BitVec.ofBool (o == .ccw) ++ BitVec.ofBool (o == .cw)

end Sys2Proof.Machine
end

