-- ==== Sys2Proof/Machine/Configure.lean ====
section
/-! DEFINITION. Construction (R6, R26, R101, R109 step 1): the policy codes (R25), the checks in their order, and
the building of a block's parameters from what is supplied. -/

namespace Sys2Proof.Machine

open Sys2Proof

/-- The reason codes of R26. -/
def reasonCode : ConfigReason → Nat
  | .minGtMax => 1
  | .policyReserved => 2
  | .incrRange => 3
  | .width => 4
  | .ttMalformed => 5

/-- The policy of a 2-bit code (R25); 0b11 is reserved. -/
def policyOfCode (c : BitVec 2) : Option Policy :=
  if c = 0b00#2 then some .unbounded
  else if c = 0b01#2 then some .wrap
  else if c = 0b10#2 then some .bounded
  else none

/-- The 2-bit code of a policy (R25). -/
def policyCode : Policy → BitVec 2
  | .unbounded => 0b00#2
  | .wrap => 0b01#2
  | .bounded => 0b10#2

/-- Every entry of the table may stand in an admitted table (R72). -/
def tableAdmitted (tt : Table) : Bool := (tableImage tt).all entryAdmitted

/-- The check of R26 that a reason names, as a test that it FAILS. The increment check `INCR > 2^(W-1) - 1` is
written `2 * (INCR + 1) > 2^W`, which is the same for every W >= 1 (log 11). -/
def checkFails (c : Supplied) : ConfigReason → Bool
  | .minGtMax => (c.policy == 0b01#2 || c.policy == 0b10#2) && decide (c.max.toInt < c.min.toInt)
  | .policyReserved => c.policy == 0b11#2
  | .incrRange => decide (2 ^ c.w < 2 * (c.incr.toNat + 1))
  | .width => decide (c.w < 2)
  | .ttMalformed => !tableAdmitted c.tt

/-- The construction check: the reason of the first failing check in the order of R26 (R101); `none` where the
configuration is valid. -/
def checkConfig (c : Supplied) : Option ConfigReason :=
  if checkFails c .minGtMax then some .minGtMax
  else if checkFails c .policyReserved then some .policyReserved
  else if checkFails c .incrRange then some .incrRange
  else if checkFails c .width then some .width
  else if checkFails c .ttMalformed then some .ttMalformed
  else none

/-- The record that a built configuration and its table were supplied as. -/
def supplied (c : Cfg) (tt : Table) : Supplied where
  w := c.w
  policy := policyCode c.policy
  min := c.min
  max := c.max
  incr := c.incr
  reverse := c.reverse
  tt := tt

/-- The construction check of the parameters that a state carries. -/
def checkBuilt (c : Cfg) (tt : Table) : Option ConfigReason := checkConfig (supplied c tt)

/-- Construction (R26, R95): the parameters of the block, or `refuse Config(reason)`. -/
def build (c : Supplied) : Except ConfigReason (Cfg × Table) :=
  match checkConfig c, policyOfCode c.policy with
  | some r, _ => .error r
  | none, none => .error .policyReserved
  | none, some p =>
    .ok ({ w := c.w, policy := p, min := c.min, max := c.max, incr := c.incr, reverse := c.reverse }, c.tt)

/-- R0, the value of RESET and of hardware reset: 0 under Unbounded, MIN otherwise (R31, R80). -/
def resetValue (c : Cfg) : Int :=
  match c.policy with
  | .unbounded => 0
  | .wrap => c.min.toInt
  | .bounded => c.min.toInt

/-- The configuration that `State.reset` carries: the spec's defaults of W, INCR and REVERSE (R7), and Unbounded with
MIN = MAX = 0 where it leaves the parameter open (log 1, DESIGN CHOICE). -/
def defaultCfg : Cfg where
  w := defaultWidth
  policy := .unbounded
  min := 0
  max := 0
  incr := 1
  reverse := false

end Sys2Proof.Machine
end

