-- ==== Sys2Proof/Machine/State.lean ====
section
/-! DEFINITION. The state of the block: the three registers of R15, the two fixed parameters that R15 names beside
them, and the model's own record of what the agents present and what they have been handed back. -/

namespace Sys2Proof.Machine

open Sys2Proof

/-- What an event returns to the agent that issued it (R9, R39). -/
inductive Result where
  /-- the outcome that SAMPLE returns to the sample source (R64) -/
  | direction (o : Direction)
  /-- `sext_W(VALUE)`, returned by READ and ANGLE to the host (R78, R79) -/
  | value (v : Int)
  /-- the 3-bit code returned by STATE to the host (R82) -/
  | code (c : StateCode)
  deriving DecidableEq, Repr

/-- The input ports of one clock cycle (R47). -/
structure Ports (w : Nat) where
  rst : Bool
  smpValid : Bool
  smp : BitVec 2
  cmdValid : Bool
  cmd : BitVec 3
  wdata : Word w
  deriving DecidableEq, Repr

/-- What is presented to the block in one cycle: an abstract event word alone (R48), or the ports (R47). Log 3, log
5. -/
inductive Input (w : Nat) where
  | event (e : EventWord w)
  | ports (p : Ports w)
  deriving DecidableEq, Repr

/-- The state. The spec's registers are `automaton`, `value` and `dirOut` (R15); `cfg` and `tt` are its fixed
parameters (R15, R24, R28; log 1); `launched`, `inputs` and `results` are the model's own (log 6, log 3, log 4). -/
structure State where
  /-- CFG, fixed (R24, R27) -/
  cfg : Cfg
  /-- TT, fixed (R28) -/
  tt : Table
  /-- STATE (R16) -/
  automaton : Automaton
  /-- VALUE (R18) -/
  value : Word cfg.w
  /-- DIR_OUT (R20) -/
  dirOut : DirBits
  /-- the block has had its hardware reset (R32) -/
  launched : Bool
  /-- what the agents present from now on, in the total order of R41 -/
  inputs : List (Input cfg.w)
  /-- what events have returned, newest first -/
  results : List Result
  deriving DecidableEq, Repr

/-- Reasons for a step to stop with a fault. There is none: no event raises an exception and nothing traps (R96,
R102). -/
inductive Fault where
  deriving DecidableEq, Repr

/-- Reasons for a step to refuse. All are safe: the spec gives no effect there. -/
inductive Refusal where
  /-- an instruction without a meaning in `exec`; no arm raises it. Safe. -/
  | notModelled (mnemonic : String)
  /-- raised by `step`: the block cannot be built from this configuration (R26, R95). Safe. -/
  | config (reason : ConfigReason)
  /-- raised by `step`: an event before the first hardware reset (R32). Safe. -/
  | beforeReset
  /-- raised by `step`: the event word is no event of R48 (log 7). Safe. -/
  | malformedEvent (e : DecodeError)
  deriving DecidableEq, Repr

/-- The state right after hardware reset of a block with these parameters (R31, R107), with nothing presented yet. -/
def State.resetOf (c : Cfg) (tt : Table) : State where
  cfg := c
  tt := tt
  automaton := .start
  value := BitVec.ofInt c.w (resetValue c)
  dirOut := dirBits .none
  launched := true
  inputs := []
  results := []

/-- The machine right after reset, with the parameters of log 1. -/
def State.reset : State := State.resetOf defaultCfg tableRef

end Sys2Proof.Machine
end

