-- ==== Sys2Proof/Machine/Operands.lean ====
section
/-! DEFINITION. The operand forms (R48 to R50): the pin sample of SAMPLE needs no form beyond `PinSample`; the SET
operand is a W-bit field read as two's complement. -/

namespace Sys2Proof.Machine

open Sys2Proof

/-- The SET operand as the block receives it: the W-bit field of `v`, read as `sext_W` (R50). For an operand that
fits in signed W bits this is `v` itself (log 12). -/
def setOperand (w : Nat) (v : Int) : Int := (BitVec.ofInt w v).toInt

end Sys2Proof.Machine
end

