-- ==== Sys2Proof/Machine/Ops.lean ====
section
/-! DEFINITION. The shared operations: the arithmetic of R9 and R73 to R76, APPLY (R77), the handing back of a result
(R9), the writes of the three registers, and hardware reset (R107). The block takes no exception and returns from
none (R96, R102), so there is no operation for either. -/

namespace Sys2Proof.Machine

open Sys2Proof

/-- Go on from a next state; a stop stays that stop. -/
def andThen (o : Host.Outcome State Fault Refusal) (f : State → Host.Outcome State Fault Refusal) :
    Host.Outcome State Fault Refusal :=
  match o with
  | .next s => f s
  | .fault r => .fault r
  | .refused r => .refused r

/-- `wrap_W(z)` (R9). -/
def wrapW (w : Nat) (z : Int) : Int := (z + 2 ^ (w - 1)) % 2 ^ w - 2 ^ (w - 1)

/-- `clamp(z, lo, hi)` (R9). -/
def clamp (z lo hi : Int) : Int := min (max z lo) hi

/-- The range size `M = MAX - MIN + 1` (R75). -/
def rangeSize (c : Cfg) : Int := c.max.toInt - c.min.toInt + 1

/-- `Norm(z)` (R74, R75, R76). The modulo is Lean's `Int.emod`, which is never negative for a positive divisor. -/
def rangeNorm (c : Cfg) (z : Int) : Int :=
  match c.policy with
  | .unbounded => wrapW c.w z
  | .wrap => c.min.toInt + (z - c.min.toInt) % rangeSize c
  | .bounded => clamp z c.min.toInt c.max.toInt

/-- `Delta(o)` (R73). -/
def delta (c : Cfg) : Direction → Int
  | .none => 0
  | .cw => if c.reverse then -(c.incr.toNat : Int) else c.incr.toNat
  | .ccw => if c.reverse then c.incr.toNat else -(c.incr.toNat : Int)

/-- `VALUE <- z`, written as W-bit two's complement (R18). -/
def State.writeValue (s : State) (z : Int) : State := { s with value := BitVec.ofInt s.cfg.w z }

/-- `STATE <- a` (R16). -/
def State.writeAutomaton (s : State) (a : Automaton) : State := { s with automaton := a }

/-- `DIR_OUT <- {o = CCW, o = CW}` (R20, R64). -/
def State.writeDirOut (s : State) (o : Direction) : State := { s with dirOut := dirBits o }

/-- `return r` (R9): the result is handed to the agent that issued the event. -/
def State.returns (s : State) (r : Result) : State := { s with results := r :: s.results }

/-- VALUE after APPLY(o) (R77): the sum is exact, then normalized, then written as W-bit two's complement; unchanged
when `o` is None. -/
def applied (c : Cfg) (v : Word c.w) (o : Direction) : Word c.w :=
  match o with
  | .none => v
  | .cw => BitVec.ofInt c.w (rangeNorm c (v.toInt + delta c .cw))
  | .ccw => BitVec.ofInt c.w (rangeNorm c (v.toInt + delta c .ccw))

/-- APPLY(o) (R77). -/
def State.apply (s : State) (o : Direction) : State := { s with value := applied s.cfg s.value o }

/-- The agent that a result is handed to (R9, R103). -/
def Result.agent : Result → Agent
  | .direction _ => .sampleSource
  | .value _ => .host
  | .code _ => .host

/-- Hardware reset (R31, R107): STATE, VALUE and DIR_OUT take their reset values; CFG and TT are not affected. -/
def State.hardwareReset (s : State) : State :=
  { s with
    automaton := .start
    value := BitVec.ofInt s.cfg.w (resetValue s.cfg)
    dirOut := dirBits .none
    launched := true }

end Sys2Proof.Machine
end

