-- ==== Sys2Proof/Machine/Decoder.lean ====
section
/-! DEFINITION. The quadrature_decoder: SAMPLE (R64). -/

namespace Sys2Proof.Machine

open Sys2Proof

/-- SAMPLE x (R64): one decoder step, its outcome applied to the accumulator, recorded in DIR_OUT and returned. All
writes belong to the one event (R45). -/
def execSample (x : PinSample) (s : State) : Host.Outcome State Fault Refusal :=
  let e := ttRead s.tt s.automaton x
  let o := outcome e
  .next ((((s.writeAutomaton (entryNext e)).apply o).writeDirOut o).returns (.direction o))

end Sys2Proof.Machine
end

