-- ==== Sys2Proof/Machine/Position.lean ====
section
/-! DEFINITION. The position_accumulator's host commands (R78 to R83). -/

namespace Sys2Proof.Machine

open Sys2Proof

/-- READ (R78): return `sext_W(VALUE)`. -/
def execRead (s : State) : Host.Outcome State Fault Refusal :=
  .next (s.returns (.value s.value.toInt))

/-- ANGLE (R79): return `sext_W(VALUE)`; there is no angle register. -/
def execAngle (s : State) : Host.Outcome State Fault Refusal :=
  .next (s.returns (.value s.value.toInt))

/-- RESET (R80): VALUE <- R0; STATE and DIR_OUT are not changed. -/
def execReset (s : State) : Host.Outcome State Fault Refusal :=
  .next (s.writeValue (resetValue s.cfg))

/-- SET v (R81): VALUE <- Norm(sext_W(v)), one atomic write. -/
def execSet (v : Int) (s : State) : Host.Outcome State Fault Refusal :=
  .next (s.writeValue (rangeNorm s.cfg (setOperand s.cfg.w v)))

/-- STATE (R82): return the 3-bit code of STATE. -/
def execState (s : State) : Host.Outcome State Fault Refusal :=
  .next (s.returns (.code s.automaton.code))

/-- NOP (R83): nothing. -/
def execNop (s : State) : Host.Outcome State Fault Refusal := .next s

end Sys2Proof.Machine
end

