-- ==== Sys2Proof/Machine/Reserved.lean ====
section
/-! DEFINITION. The reserved event codes: no effect, no result, nothing raised (R52, D18). -/

namespace Sys2Proof.Machine

open Sys2Proof

/-- The reserved codes 0b0100 to 0b0111 (R52). -/
def execReservedS (_x : BitVec 2) (s : State) : Host.Outcome State Fault Refusal := .next s

/-- The reserved codes 0b1110 and 0b1111 (R52). -/
def execReservedH (_x : BitVec 1) (s : State) : Host.Outcome State Fault Refusal := .next s

end Sys2Proof.Machine
end

