-- ==== Sys2Proof/Machine/Dispatch.lean ====
section
/-! DEFINITION. The meaning of every event, one arm per constructor of `Instr` (R51). -/

namespace Sys2Proof.Machine

open Sys2Proof

def exec (i : Instr) (s : State) : Host.Outcome State Fault Refusal :=
  match i with
  | .sample x => Sys2Proof.Machine.execSample x s
  | .reservedS x => Sys2Proof.Machine.execReservedS x s
  | .nop => Sys2Proof.Machine.execNop s
  | .read => Sys2Proof.Machine.execRead s
  | .angle => Sys2Proof.Machine.execAngle s
  | .reset => Sys2Proof.Machine.execReset s
  | .set v => Sys2Proof.Machine.execSet v s
  | .state => Sys2Proof.Machine.execState s
  | .reservedH x => Sys2Proof.Machine.execReservedH x s

end Sys2Proof.Machine
end

