-- ==== Sys2Proof/Machine/Clock.lean ====
section
/-! DEFINITION. The clocked realization (R42, R47, R53, R100, R107, R112, R113): the events that the ports present,
the order of one cycle, the DIR_OUT pulse, the output ports, and what one input does. -/

namespace Sys2Proof.Machine

open Sys2Proof

/-- The host port's event: `EV = {0b1, cmd}`, with `wdata` as the operand when `cmd = 0b100` (R53). -/
def Ports.hostWord {w : Nat} (p : Ports w) : Option (EventWord w) :=
  if p.cmdValid then
    some { code := 0b1#1 ++ p.cmd, operand := if p.cmd = 0b100#3 then some p.wdata else none }
  else none

/-- The sample port's event: `EV = {0b00, smp}` (R53). -/
def Ports.sampleWord {w : Nat} (p : Ports w) : Option (EventWord w) :=
  if p.smpValid then some { code := 0b00#2 ++ p.smp, operand := none } else none

/-- Perform an event word: the meaning of the event it decodes to. -/
def performWord {w : Nat} (e : EventWord w) (s : State) : Host.Outcome State Fault Refusal :=
  match decode e with
  | .ok i => exec i s
  | .error r => .refused (.malformedEvent r)

/-- Perform the event of a port, if it presents one. -/
def performPort {w : Nat} (e : Option (EventWord w)) (s : State) : Host.Outcome State Fault Refusal :=
  match e with
  | none => .next s
  | some e => performWord e s

/-- The end of a cycle: without a SAMPLE event, DIR_OUT is set to 0b00 (R20, R113). -/
def State.endCycle (s : State) (sampled : Bool) : State :=
  if sampled then s else s.writeDirOut .none

/-- One clock cycle of the ports: `rst` performs the reset alone (R47, R100, R107); otherwise the host command, on
the state at the start of the cycle, then the SAMPLE (R42). -/
def clockCycle {w : Nat} (p : Ports w) (s : State) : Host.Outcome State Fault Refusal :=
  if p.rst then .next s.hardwareReset
  else
    andThen (performPort p.hostWord s) fun s1 =>
      andThen (performPort p.sampleWord s1) fun s2 =>
        .next (s2.endCycle p.smpValid)

/-- An abstract event word, alone in its cycle (log 5). -/
def eventCycle {w : Nat} (e : EventWord w) (s : State) : Host.Outcome State Fault Refusal :=
  andThen (performWord e s) fun s1 => .next (s1.endCycle e.isSample)

/-- The input presents an event that is to be performed; with `rst` the events of the cycle are ignored (R47). -/
def Input.hasEvent {w : Nat} : Input w → Bool
  | .event _ => true
  | .ports p => !p.rst && (p.smpValid || p.cmdValid)

/-- One input: refused where it presents an event before the first hardware reset (R32), else its cycle. -/
def runInput {w : Nat} (inp : Input w) (s : State) : Host.Outcome State Fault Refusal :=
  if !s.launched && inp.hasEvent then .refused .beforeReset
  else
    match inp with
    | .event e => eventCycle e s
    | .ports p => clockCycle p s

/-- A cycle in which nothing is presented (R20, R53; log 3). -/
def idleCycle (s : State) : Host.Outcome State Fault Refusal := .next (s.endCycle false)

/-- Take the next input away from what is presented. -/
def State.dropInput (s : State) : State := { s with inputs := s.inputs.tail }

/-- The output ports (R47). -/
structure Outputs (w : Nat) where
  valueO : Word w
  angleO : Word w
  stateO : StateCode
  dirO : DirBits
  deriving DecidableEq, Repr

/-- All outputs are driven from the registers (R47). -/
def State.outputs (s : State) : Outputs s.cfg.w where
  valueO := s.value
  angleO := s.value
  stateO := s.automaton.code
  dirO := s.dirOut

end Sys2Proof.Machine
end

