-- ==== Sys2Proof/Machine/Step.lean ====
section
/-! DEFINITION. One step of the block: one clock cycle (R115), in which the next input is performed. -/

namespace Sys2Proof.Machine

open Sys2Proof

/-- One step. A configuration that fails the construction check has no event (R26). With nothing presented the cycle
is idle. -/
def step (s : State) : Host.Outcome State Fault Refusal :=
  match checkBuilt s.cfg s.tt with
  | some r => .refused (.config r)
  | none =>
    match s.inputs with
    | [] => idleCycle s
    | inp :: _ => runInput inp s.dropInput

/-- The event word in the low `nbits` bits of `w` is what is presented next (log 3, log 8). -/
def State.withFetchWord (s : State) (nbits w : Nat) : State :=
  { s with inputs := .event (EventWord.ofNat s.cfg.w nbits w) :: s.inputs }

end Sys2Proof.Machine
end

