-- ==== Sys2Proof/Machine/Run.lean ====
section
/-! DEFINITION. Sequences of events (R41, R55): performing a list of events in order, taking several steps, and the
pseudo-events of R57. -/

namespace Sys2Proof.Machine

open Sys2Proof

/-- Perform events in their total order (R41), each on the state that the one before it left. -/
def execAll : List Instr → State → Host.Outcome State Fault Refusal
  | [], s => .next s
  | i :: is, s => andThen (exec i s) (execAll is)

/-- `n` steps, up to the first stop. -/
def stepMany : Nat → State → Host.Outcome State Fault Refusal
  | 0, s => .next s
  | n + 1, s => andThen (step s) (stepMany n)

/-- SAMPLE events for a sequence of pin samples. -/
def samples (xs : List PinSample) : List Instr := xs.map .sample

/-- The samples of one clockwise detent: 10, 00, 01, 11 (R57, R65). -/
def cwSamples : List PinSample := [⟨true, false⟩, ⟨false, false⟩, ⟨false, true⟩, ⟨true, true⟩]

/-- The samples of one counter-clockwise detent: 01, 00, 10, 11 (R57, R66). -/
def ccwSamples : List PinSample := [⟨false, true⟩, ⟨false, false⟩, ⟨true, false⟩, ⟨true, true⟩]

/-- A list of events repeated `n` times (R57). -/
def repeated (n : Nat) (is : List Instr) : List Instr := (List.replicate n is).flatten

/-- DETENT_CW*n (R57), the same events under every table (log 14). -/
def detentsCw (n : Nat) : List Instr := repeated n (samples cwSamples)

/-- DETENT_CCW*n (R57), the same events under every table (log 14). -/
def detentsCcw (n : Nat) : List Instr := repeated n (samples ccwSamples)

end Sys2Proof.Machine
end

