-- ==== Sys2Proof/Machine/Assembler.lean ====
section
/-! DEFINITION. The assembler syntax of event programs (R56) and its pseudo-events (R57). A line is a list of
characters; what R56 leaves open about blanks is log 13. -/

namespace Sys2Proof.Machine

open Sys2Proof

/-- The value of a digit. -/
def digitOf (c : Char) : Option Nat :=
  if '0' ≤ c ∧ c ≤ '9' then some (c.toNat - '0'.toNat) else none

/-- A decimal natural number, read from the left with what was read so far. -/
def decimalFrom (acc : Nat) : List Char → Option Nat
  | [] => some acc
  | c :: cs => match digitOf c with
    | some d => decimalFrom (10 * acc + d) cs
    | none => none

/-- A decimal natural number of at least one digit. -/
def decimal : List Char → Option Nat
  | [] => none
  | c :: cs => decimalFrom 0 (c :: cs)

/-- A decimal integer. -/
def decimalInt : List Char → Option Int
  | '-' :: cs => (decimal cs).map fun n => -(n : Int)
  | cs => (decimal cs).map fun n => (n : Int)

/-- A binary digit as a pin level. -/
def levelOf (c : Char) : Option Bool :=
  if c = '0' then some false else if c = '1' then some true else none

/-- A SAMPLE operand: two binary digits, CLK then DT, or the same after `0b`. -/
def sampleOperand : List Char → Option PinSample
  | [a, b] => match levelOf a, levelOf b with
    | some c, some d => some ⟨c, d⟩
    | _, _ => none
  | ['0', 'b', a, b] => match levelOf a, levelOf b with
    | some c, some d => some ⟨c, d⟩
    | _, _ => none
  | _ => none

/-- The repetition count of a pseudo-event: nothing, or `*n`. -/
def countOf : List Char → Option Nat
  | [] => some 1
  | '*' :: cs => decimal cs
  | _ => none

/-- The rest of a list of characters after a prefix, if it has that prefix. -/
def afterPrefix : List Char → List Char → Option (List Char)
  | [], cs => some cs
  | _ :: _, [] => none
  | p :: ps, c :: cs => if p = c then afterPrefix ps cs else none

def kwSample : List Char := ['S', 'A', 'M', 'P', 'L', 'E']
def kwNop : List Char := ['N', 'O', 'P']
def kwRead : List Char := ['R', 'E', 'A', 'D']
def kwAngle : List Char := ['A', 'N', 'G', 'L', 'E']
def kwReset : List Char := ['R', 'E', 'S', 'E', 'T']
def kwSet : List Char := ['S', 'E', 'T']
def kwState : List Char := ['S', 'T', 'A', 'T', 'E']
def kwDetentCw : List Char := ['D', 'E', 'T', 'E', 'N', 'T', '_', 'C', 'W']
def kwDetentCcw : List Char := ['D', 'E', 'T', 'E', 'N', 'T', '_', 'C', 'C', 'W']

/-- A pseudo-event word (R57). R57's expansions hold only when `TT = TT_REF`; the assembler takes no table and gives
the same events under every table (log 14, DESIGN CHOICE). -/
def pseudoEvent (word : List Char) : Option (List Instr) :=
  match afterPrefix kwDetentCw word, afterPrefix kwDetentCcw word with
  | some rest, _ => (countOf rest).map detentsCw
  | none, some rest => (countOf rest).map detentsCcw
  | none, none => none

/-- The events of the words of a line, without its agent prefix (R56, R57). -/
def eventsOfWords (w : Nat) : List (List Char) → Option (List Instr)
  | [] => some []
  | [m] =>
    if m = kwNop then some [.nop]
    else if m = kwRead then some [.read]
    else if m = kwAngle then some [.angle]
    else if m = kwReset then some [.reset]
    else if m = kwState then some [.state]
    else pseudoEvent m
  | [m, a] =>
    if m = kwSample then (sampleOperand a).map fun x => [.sample x]
    else if m = kwSet then
      match decimalInt a with
      | some v => if WellFormed w (.set v) then some [.set v] else none
      | none => none
    else none
  | _ => none

/-- The words of a line, split at blanks; `cur` is the word being read, in reverse. -/
def splitWords (cur : List Char) : List Char → List (List Char)
  | [] => if cur.isEmpty then [] else [cur.reverse]
  | c :: cs =>
    if c = ' ' then (if cur.isEmpty then splitWords [] cs else cur.reverse :: splitWords [] cs)
    else splitWords (c :: cur) cs

/-- The agent that issues an event (R103). -/
def agentOf (i : Instr) : Agent := if (encodeCode i).getLsbD 3 then .host else .sampleSource

/-- The events of one line in a block of width `w`: a comment begins at `;`, and a prefix `H:` or `S:` names the
agent, which must be the one that issues the line's events (R56). -/
def assembleLine (w : Nat) (line : List Char) : Option (List Instr) :=
  match splitWords [] (line.takeWhile (· ≠ ';')) with
  | ['H', ':'] :: ws => (eventsOfWords w ws).filter fun is => is.all fun i => agentOf i = .host
  | ['S', ':'] :: ws => (eventsOfWords w ws).filter fun is => is.all fun i => agentOf i = .sampleSource
  | ws => eventsOfWords w ws

/-- The events of a program, one line after another; `none` where a line has none of the forms of R56 and R57. -/
def assemble (w : Nat) : List (List Char) → Option (List Instr)
  | [] => some []
  | l :: ls => match assembleLine w l, assemble w ls with
    | some is, some js => some (is ++ js)
    | _, _ => none

end Sys2Proof.Machine
end

