-- ==== Sys2Proof/Safety.lean ====
section
/-! DEFINITION. What a safe run of the block is, and the words in which claims about sample sequences are stated:
the invariant of every reachable state, the readiness of a state to take a step, outcomes and counts, and the motion
of the pins (R71). -/

namespace Sys2Proof.Machine

open Sys2Proof

/-- The parameters pass the construction check (R26). -/
def ValidConfig (c : Cfg) (tt : Table) : Prop := checkBuilt c tt = none

/-- VALUE is in range (R13, R19): between MIN and MAX under Wrap and Bounded, anything under Unbounded. -/
def State.InRange (s : State) : Prop :=
  s.cfg.policy ≠ .unbounded → s.cfg.min.toInt ≤ s.value.toInt ∧ s.value.toInt ≤ s.cfg.max.toInt

/-- The invariant of every state that a launched block reaches. -/
structure State.Inv (s : State) : Prop where
  /-- the block could be built (R26) -/
  valid : ValidConfig s.cfg s.tt
  /-- the hardware reset has been performed (R32) -/
  launched : s.launched = true
  /-- R19 -/
  inRange : s.InRange
  /-- 0b11 is never in DIR_OUT (R20) -/
  dirOut : s.dirOut ≠ 0b11#2
  /-- ILLEGAL is unreachable under TT_REF (R68) -/
  legal : s.tt = tableRef → s.automaton ≠ .illegal

/-- The input is one that R47 or R48 admits: port values always are, an event word where it decodes. -/
def Input.admitted {w : Nat} : Input w → Bool
  | .event e => match decode e with
    | .ok _ => true
    | .error _ => false
  | .ports _ => true

/-- The state can take a step: valid parameters, launched, and an admitted next input. -/
structure State.Ready (s : State) : Prop where
  valid : ValidConfig s.cfg s.tt
  launched : s.launched = true
  admitted : ∀ inp ∈ s.inputs.head?, inp.admitted = true

/-- The outcomes among results, in the order of the list. -/
def outcomesOf (rs : List Result) : List Direction :=
  rs.filterMap fun r => match r with
    | .direction o => some o
    | .value _ => none
    | .code _ => none

/-- `#CW - #CCW` of a list of outcomes (R71). -/
def netCount : List Direction → Int
  | [] => 0
  | .none :: ds => netCount ds
  | .cw :: ds => 1 + netCount ds
  | .ccw :: ds => -1 + netCount ds

/-- The sum of the signed steps of a list of outcomes (R73, R88). -/
def deltaSum (c : Cfg) : List Direction → Int
  | [] => 0
  | d :: ds => delta c d + deltaSum c ds

/-- The outcomes that are not None. -/
def emitted (ds : List Direction) : List Direction := ds.filter (· != .none)

/-- The event is a SAMPLE. -/
def isSampleEvent : Instr → Bool
  | .sample _ => true
  | .reservedS _ => false
  | .nop => false
  | .read => false
  | .angle => false
  | .reset => false
  | .set _ => false
  | .state => false
  | .reservedH _ => false

/-- The outcomes other than None that a sequence of events returns from a state, the first one first. -/
def emissions (is : List Instr) (s : State) : Option (List Direction) :=
  match execAll is s with
  | .next t => some (emitted (outcomesOf (t.results.take (t.results.length - s.results.length)))).reverse
  | .fault _ => none
  | .refused _ => none

/-- The event writes VALUE in this state (R18, R33): RESET and SET do, and SAMPLE where its outcome is not None. -/
def writesValue (i : Instr) (s : State) : Bool :=
  match i with
  | .sample x => outcome (ttRead s.tt s.automaton x) != .none
  | .reservedS _ => false
  | .nop => false
  | .read => false
  | .angle => false
  | .reset => true
  | .set _ => true
  | .state => false
  | .reservedH _ => false

/-- None of the events, performed in order from the state, writes VALUE. -/
def noValueWrite : List Instr → State → Bool
  | [], _ => true
  | i :: is, s => !writesValue i s &&
    match exec i s with
    | .next t => noValueWrite is t
    | .fault _ => false
    | .refused _ => false

/-- None of the events writes STATE (R16, R33): there is no SAMPLE among them. -/
def noStateWrite (is : List Instr) : Bool := is.all fun i => !isSampleEvent i

/-- The four pin levels, CLK then DT (R10). -/
def p00 : PinSample := ⟨false, false⟩
def p01 : PinSample := ⟨false, true⟩
def p10 : PinSample := ⟨true, false⟩
def p11 : PinSample := ⟨true, true⟩

/-- Two pin levels differ in at most one bit (R71). -/
def oneBit (p x : PinSample) : Bool := p.clk == x.clk || p.dt == x.dt

/-- The phase of a pin level: 11, 10, 00, 01 are 0, 1, 2, 3 (R71). -/
def phase (p : PinSample) : Int :=
  match p.clk, p.dt with
  | true, true => 0
  | true, false => 1
  | false, false => 2
  | false, true => 3

/-- The signed phase step: +1 clockwise (0 to 1, 1 to 2, 2 to 3, 3 to 0), -1 reverse, 0 for a repeat (R71). -/
def phaseStep (p x : PinSample) : Int :=
  if (phase x - phase p) % 4 = 1 then 1 else if (phase x - phase p) % 4 = 3 then -1 else 0

/-- Each sample differs from the one before it, the first from `p`, in at most one bit (R71). -/
def follows (p : PinSample) : List PinSample → Bool
  | [] => true
  | x :: xs => oneBit p x && follows x xs

/-- The motion `P` in quarter steps (R71, R108). -/
def motion (p : PinSample) : List PinSample → Int
  | [] => 0
  | x :: xs => phaseStep p x + motion x xs

/-- The pin level after a sequence of samples that starts at `p`. -/
def pinsAfter (p : PinSample) : List PinSample → PinSample
  | [] => p
  | x :: xs => pinsAfter x xs

/-- The residual `r` of R71. -/
def quarterResidual : Automaton → Int
  | .start => 0
  | .cw1 => 1
  | .cw2 => 2
  | .cw3 => 3
  | .ccw1 => -1
  | .ccw2 => -2
  | .ccw3 => -3
  | .illegal => 0

/-- The pin level with which a state occurs, in R71's table; ILLEGAL has none. -/
def pinsOfState : Automaton → Option PinSample
  | .start => some p11
  | .cw1 => some p10
  | .cw2 => some p00
  | .cw3 => some p01
  | .ccw1 => some p01
  | .ccw2 => some p00
  | .ccw3 => some p10
  | .illegal => none

/-- A list with one element put in before position `k`. -/
def insertAt (x : PinSample) : Nat → List PinSample → List PinSample
  | 0, xs => x :: xs
  | _ + 1, [] => [x]
  | k + 1, y :: xs => y :: insertAt x k xs

/-- A list with the element at position `k` replaced. -/
def replaceAt (x : PinSample) : Nat → List PinSample → List PinSample
  | _, [] => []
  | 0, _ :: xs => x :: xs
  | k + 1, y :: xs => y :: replaceAt x k xs

/-- Every single-sample perturbation of a detent (R70): one sample of any value inserted before any of the four
samples, or one of the four replaced by any value. -/
def perturbations (xs : List PinSample) : List (List PinSample) :=
  ([p00, p01, p10, p11].flatMap fun x => [0, 1, 2, 3].map fun k => insertAt x k xs) ++
    [p00, p01, p10, p11].flatMap fun x => [0, 1, 2, 3].map fun k => replaceAt x k xs

/-- A detent from rest with a bounce after its `k`th sample: one sample that returns to the pin level before that
sample, and then the rotation goes on to rest (R70). -/
def bounceAt (k : Nat) (xs : List PinSample) : List PinSample := xs.take k ++ (p11 :: xs).drop (k - 1)

/-- A detent from rest that turns back after its `k`th sample: the pin levels are passed in reverse down to rest
(R70). -/
def turnBackAt (k : Nat) (xs : List PinSample) : List PinSample := xs.take k ++ (p11 :: xs.take (k - 1)).reverse

/-- The event words that the ports present in a cycle without reset, in the order of R42. -/
def portWords {w : Nat} (p : Ports w) : List (EventWord w) := p.hostWord.toList ++ p.sampleWord.toList

end Sys2Proof.Machine
end

