-- ==== Sys2Proof/Certificates/Slice0/Obligations.lean ====
section
/-! DEFINITION. The statements for the provers, one `def Obligations.<Name> : Prop` each. A configuration is valid
when it passes the construction check of R26; the spec's rules assume one (R26: "Every rule of this spec assumes a
valid configuration"). -/

namespace Sys2Proof.Machine

open Sys2Proof

/-! ### Words of the statements -/

/-- The host command that a `cmd` code and `wdata` stand for (R51, R53), written out from the table of R51. -/
def portCommand {w : Nat} (cmd : BitVec 3) (v : Word w) : Instr :=
  if cmd = 0b000#3 then .nop
  else if cmd = 0b001#3 then .read
  else if cmd = 0b010#3 then .angle
  else if cmd = 0b011#3 then .reset
  else if cmd = 0b100#3 then .set v.toInt
  else if cmd = 0b101#3 then .state
  else if cmd = 0b110#3 then .reservedH 0#1
  else .reservedH 1#1

/-- The check of R26 that a reason names fails, in the spec's own terms. -/
def CheckFails (c : Supplied) : ConfigReason → Prop
  | .minGtMax => (c.policy = 0b01#2 ∨ c.policy = 0b10#2) ∧ c.min.toInt > c.max.toInt
  | .policyReserved => c.policy = 0b11#2
  | .incrRange => (c.incr.toNat : ℚ) > 2 ^ ((c.w : ℤ) - 1) - 1
  | .width => c.w < 2
  | .ttMalformed => ∃ a x, (ttRead c.tt a x).getLsbD 3 = true ∨
      ((ttRead c.tt a x).getLsbD 4 = true ∧ (ttRead c.tt a x).getLsbD 5 = true)

/-- The value that `z` is normalized to, in the spec's own terms (R74, R75, R76): `y` is in the range of the policy,
and is `z` reduced or clamped into it. -/
def Normalizes (c : Cfg) (z y : Int) : Prop :=
  match c.policy with
  | .unbounded => -(2 : Int) ^ (c.w - 1) ≤ y ∧ y < (2 : Int) ^ (c.w - 1) ∧ (2 : Int) ^ c.w ∣ z - y
  | .wrap => c.min.toInt ≤ y ∧ y ≤ c.max.toInt ∧ (c.max.toInt - c.min.toInt + 1) ∣ z - y
  | .bounded => (z < c.min.toInt → y = c.min.toInt) ∧ (c.max.toInt < z → y = c.max.toInt) ∧
      (c.min.toInt ≤ z ∧ z ≤ c.max.toInt → y = z)

/-- One row of the grid of R58: the state, and the next state and outcome for the samples 00, 01, 10 and 11. -/
def gridRow (a n00 n01 n10 n11 : Automaton) (o11 : Direction) :
    List (Automaton × PinSample × Automaton × Direction) :=
  [(a, p00, n00, .none), (a, p01, n01, .none), (a, p10, n10, .none), (a, p11, n11, o11)]

/-- The grid of R58: current state, sample, next state, outcome; only samples 11 have one. -/
def referenceGrid : List (Automaton × PinSample × Automaton × Direction) :=
  List.flatten [
    gridRow .start .start .ccw1 .cw1 .start .none,
    gridRow .cw1 .cw2 .start .cw1 .start .none,
    gridRow .cw2 .cw2 .cw3 .cw1 .start .none,
    gridRow .cw3 .cw2 .cw3 .start .start .cw,
    gridRow .ccw1 .ccw2 .ccw1 .start .start .none,
    gridRow .ccw2 .ccw2 .ccw1 .ccw3 .start .none,
    gridRow .ccw3 .ccw2 .start .ccw3 .start .ccw,
    gridRow .illegal .start .start .start .start .none]

/-- The four transitions of R69 after which a repeated sample leaves START, and the state that the repeat gives. -/
def repeatExceptions : List (Automaton × PinSample × Automaton) :=
  [(.cw1, p01, .ccw1), (.cw3, p10, .cw1), (.ccw1, p10, .cw1), (.ccw3, p01, .ccw1)]

/-- In the clocked realization the command `cmd` returns to the host what `result` reads from the output ports during
the cycle in which it is presented, the value from before a SAMPLE of the same cycle (R47, R42); that SAMPLE returns
its own result after it. -/
def CommandReturns (cmd : BitVec 3) (result : (s : State) → Outputs s.cfg.w → Result) : Prop :=
  ∀ (s : State) (p : Ports s.cfg.w) (rest : List (Input s.cfg.w)),
    ValidConfig s.cfg s.tt → s.launched = true → s.inputs = .ports p :: rest → p.rst = false →
    p.cmdValid = true → p.cmd = cmd →
    ∃ t new, step s = .next t ∧ t.results = new ++ result s s.outputs :: s.results ∧
      new.length = (if p.smpValid then 1 else 0) ∧ ∀ r ∈ new, r.agent = .sampleSource

/-- READ and ANGLE would return `v` in this state. -/
def ReadsAs (s : State) (v : Int) : Prop :=
  exec .read s = .next { s with results := .value v :: s.results } ∧
  exec .angle s = .next { s with results := .value v :: s.results }

/-- STATE would return `c` in this state. -/
def StateReadsAs (s : State) (c : StateCode) : Prop :=
  exec .state s = .next { s with results := .code c :: s.results }

/-- The two binary digits of a pin sample, CLK then DT (R10, R56). -/
def levelDigits (x : PinSample) : List Char :=
  [if x.clk then '1' else '0', if x.dt then '1' else '0']

/-- The characters of decimal digits, the most significant first. -/
def digitChars (ds : List (Fin 10)) : List Char := ds.map fun d => Nat.digitChar d.val

/-- The number that decimal digits stand for, the most significant first. -/
def digitsValue (ds : List (Fin 10)) : Nat := ds.foldl (fun n d => 10 * n + d.val) 0

/-- The characters of a decimal integer, with its sign. -/
def intChars (neg : Bool) (ds : List (Fin 10)) : List Char := if neg then '-' :: digitChars ds else digitChars ds

/-- The integer that those characters stand for. -/
def intValue (neg : Bool) (ds : List (Fin 10)) : Int := if neg then -(digitsValue ds : Int) else digitsValue ds

/-- The lines of the assembler syntax (R56, R57): the characters of the line, the events it stands for, and the agent
that issues them. The expansions of the pseudo-events are R57's for TT_REF; that they are the same under another table
is the model's choice (log 14). -/
inductive LineOf (w : Nat) : List Char → List Instr → Agent → Prop where
  | nop : LineOf w ['N', 'O', 'P'] [.nop] .host
  | read : LineOf w ['R', 'E', 'A', 'D'] [.read] .host
  | angle : LineOf w ['A', 'N', 'G', 'L', 'E'] [.angle] .host
  | reset : LineOf w ['R', 'E', 'S', 'E', 'T'] [.reset] .host
  | state : LineOf w ['S', 'T', 'A', 'T', 'E'] [.state] .host
  | set (neg : Bool) (ds : List (Fin 10)) (nonempty : ds ≠ []) (fits : WellFormed w (.set (intValue neg ds)) = true) :
      LineOf w (['S', 'E', 'T', ' '] ++ intChars neg ds) [.set (intValue neg ds)] .host
  | sample (x : PinSample) :
      LineOf w (['S', 'A', 'M', 'P', 'L', 'E', ' '] ++ levelDigits x) [.sample x] .sampleSource
  | sampleBinary (x : PinSample) :
      LineOf w (['S', 'A', 'M', 'P', 'L', 'E', ' ', '0', 'b'] ++ levelDigits x) [.sample x] .sampleSource
  | detentCw : LineOf w ['D', 'E', 'T', 'E', 'N', 'T', '_', 'C', 'W']
      [.sample p10, .sample p00, .sample p01, .sample p11] .sampleSource
  | detentCcw : LineOf w ['D', 'E', 'T', 'E', 'N', 'T', '_', 'C', 'C', 'W']
      [.sample p01, .sample p00, .sample p10, .sample p11] .sampleSource
  | detentsCw (ds : List (Fin 10)) (nonempty : ds ≠ []) :
      LineOf w (['D', 'E', 'T', 'E', 'N', 'T', '_', 'C', 'W', '*'] ++ digitChars ds)
        (List.replicate (digitsValue ds) [.sample p10, .sample p00, .sample p01, .sample p11]).flatten .sampleSource
  | detentsCcw (ds : List (Fin 10)) (nonempty : ds ≠ []) :
      LineOf w (['D', 'E', 'T', 'E', 'N', 'T', '_', 'C', 'C', 'W', '*'] ++ digitChars ds)
        (List.replicate (digitsValue ds) [.sample p01, .sample p00, .sample p10, .sample p11]).flatten .sampleSource

/-- The two agent marks of R56, with a blank after them. -/
def agentMark : Agent → List Char
  | .host => ['H', ':', ' ']
  | .sampleSource => ['S', ':', ' ']

end Sys2Proof.Machine

open Sys2Proof Sys2Proof.Machine

/-! ### Encoding -/

/-- R51: each of the 16 codes decodes as its row of the table says, in a block of any width, SET with its operand read
as two's complement (R50). -/
def Obligations.SixteenEventCodesDecodeAsTheTableSays : Prop :=
  ∀ w : Nat,
    (∀ x : BitVec 2, decode (w := w) ⟨0b00#2 ++ x, none⟩ = .ok (.sample ⟨x.getLsbD 1, x.getLsbD 0⟩)) ∧
    (∀ x : BitVec 2, decode (w := w) ⟨0b01#2 ++ x, none⟩ = .ok (.reservedS x)) ∧
    decode (w := w) ⟨0b1000#4, none⟩ = .ok .nop ∧
    decode (w := w) ⟨0b1001#4, none⟩ = .ok .read ∧
    decode (w := w) ⟨0b1010#4, none⟩ = .ok .angle ∧
    decode (w := w) ⟨0b1011#4, none⟩ = .ok .reset ∧
    (∀ v : Word w, decode ⟨0b1100#4, some v⟩ = .ok (.set v.toInt)) ∧
    decode (w := w) ⟨0b1101#4, none⟩ = .ok .state ∧
    (∀ x : BitVec 1, decode (w := w) ⟨0b111#3 ++ x, none⟩ = .ok (.reservedH x))

/-- R48, R50, R51: in a block of any width, decoding the event word of any event that can be written down gives that
event back. -/
def Obligations.DecodeOfEncodeIsTheEvent : Prop :=
  ∀ (w : Nat) (i : Instr), WellFormed w i = true → decode (encode w i) = .ok i

/-- R48, R51, R54: an event word that decodes is the word of the event it decodes to, and that event can be written
down; so no two event words stand for one event. -/
def Obligations.EncodeOfDecodeIsTheEventWord : Prop :=
  ∀ (w : Nat) (e : EventWord w) (i : Instr), decode e = .ok i → WellFormed w i = true ∧ encode w i = e

/-- R48, R53: every code is an event, with the operand present only when the code is SET's. The two rejections by name
are the model's (log 7). -/
def Obligations.DecodingRejectsExactlyTheMisplacedOperands : Prop :=
  ∀ (w : Nat) (e : EventWord w),
    ((∃ i, decode e = .ok i) ↔ (e.operand.isSome = true ↔ e.code = 0b1100#4)) ∧
    (decode e = .error .missingOperand ↔ e.code = 0b1100#4 ∧ e.operand = none) ∧
    (decode e = .error .strayOperand ↔ e.code ≠ 0b1100#4 ∧ e.operand.isSome = true)

/-- R17: the 8 states have the 3-bit codes of the table, and every code names a state. -/
def Obligations.EightStatesHaveTheEightCodes : Prop :=
  ([.start, .cw1, .cw2, .cw3, .ccw1, .ccw2, .ccw3, .illegal] : List Automaton).map (fun a => a.code.toNat)
      = [0, 1, 2, 3, 4, 5, 6, 7] ∧
  (∀ a : Automaton, Automaton.ofCode a.code = a) ∧ (∀ c : StateCode, (Automaton.ofCode c).code = c)

/-- R49: a pin sample is `2*CLK_level + DT_level`. -/
def Obligations.PinSampleIsClockHighDataLow : Prop :=
  (∀ clk dt : Bool, (PinSample.bits ⟨clk, dt⟩).toNat = 2 * clk.toNat + dt.toNat) ∧
  (∀ x : BitVec 2, (PinSample.ofBits x).bits = x) ∧ (∀ x : PinSample, PinSample.ofBits x.bits = x)

/-- R56, R57: every line of the assembler syntax gives its events, alone, with a comment after it, and after the mark
of the agent that issues them; after the other agent's mark a line of at least one event is rejected. A SET whose
operand does not fit in signed W bits is rejected. A program gives the events of its lines in order. What R56 leaves
open about blanks, and that a wrong mark is rejected, is the model's (log 13). That a pseudo-event gives the same
events whatever the table is the model's choice; R57 states its expansion for TT_REF alone (log 14). -/
def Obligations.AssemblerReadsTheEventProgram : Prop :=
  (∀ (w : Nat) (l : List Char) (is : List Instr) (g : Agent), LineOf w l is g →
    assembleLine w l = some is ∧
    (∀ comment, assembleLine w (l ++ [' ', ';'] ++ comment) = some is) ∧
    assembleLine w (agentMark g ++ l) = some is ∧
    (∀ h, h ≠ g → is ≠ [] → assembleLine w (agentMark h ++ l) = none)) ∧
  (∀ (w : Nat) (neg : Bool) (ds : List (Fin 10)), WellFormed w (.set (intValue neg ds)) = false →
    assembleLine w (['S', 'E', 'T', ' '] ++ intChars neg ds) = none) ∧
  (∀ (w : Nat) (ls : List (List Char × List Instr)), (∀ l ∈ ls, ∃ g, LineOf w l.1 l.2 g) →
    assemble w (ls.map (·.1)) = some (ls.flatMap (·.2)))

/-! ### Construction and reset -/

/-- R26, R101: construction refuses a configuration exactly with the first failing check, in the order of the reason
codes, and admits one that fails none. A block whose parameters fail a check has no event: every step refuses with
that reason, and there is no step to take. That it is the step that refuses is the model's choice (log 10); at W = 0,
where INCR = 0 is above 2^(-1) - 1 over the rationals, that check 3 is the first to fail is the model's reading (log
11, DEDUCED). -/
def Obligations.ConstructionReportsTheFirstFailingCheck : Prop :=
  (∀ (c : Supplied) (r : ConfigReason), build c = .error r ↔
    CheckFails c r ∧ ∀ q, reasonCode q < reasonCode r → ¬ CheckFails c q) ∧
  (∀ c : Supplied, (∃ b, build c = .ok b) ↔ ∀ r, ¬ CheckFails c r) ∧
  (∀ (s : State) (r : ConfigReason), build (supplied s.cfg s.tt) = .error r → step s = .refused (.config r))

/-- R24, R25: a block that is built has the parameters it was supplied with, POLICY as its code says: 0b00 is
Unbounded, 0b01 Wrap and 0b10 Bounded. -/
def Obligations.BuiltBlockHasTheSuppliedParameters : Prop :=
  ∀ (c : Supplied) (b : Cfg) (tt : Table), build c = .ok (b, tt) →
    supplied b tt = c ∧ ValidConfig b tt ∧
    (c.policy = 0b00#2 → b.policy = .unbounded) ∧
    (c.policy = 0b01#2 → b.policy = .wrap) ∧
    (c.policy = 0b10#2 → b.policy = .bounded)

/-- R31: what hardware reset leaves, for every configuration; R0 satisfies the invariant of R19. -/
def Obligations.ResetStateHoldsTheResetValues : Prop :=
  ∀ (c : Cfg) (tt : Table), ValidConfig c tt →
    (State.resetOf c tt).automaton.code = 0b000#3 ∧
    (State.resetOf c tt).dirOut = 0b00#2 ∧
    (State.resetOf c tt).cfg = c ∧ (State.resetOf c tt).tt = tt ∧
    (c.policy = .unbounded → (State.resetOf c tt).value.toInt = 0) ∧
    (c.policy ≠ .unbounded → (State.resetOf c tt).value.toInt = c.min.toInt) ∧
    (State.resetOf c tt).InRange

/-- R107: a cycle with `rst = 1` gives the reset values and ignores the cycle's events, whatever state the block is
in; CFG and TT stay, and the registers are those of the launch state. -/
def Obligations.HardwareResetCycleGivesTheResetState : Prop :=
  ∀ (s : State) (p : Ports s.cfg.w) (rest : List (Input s.cfg.w)),
    ValidConfig s.cfg s.tt → s.inputs = .ports p :: rest → p.rst = true →
    ∃ v : Word s.cfg.w,
      step s = .next { s with
        automaton := .start, value := v, dirOut := 0b00#2, launched := true, inputs := rest } ∧
      v.toInt = (if s.cfg.policy = .unbounded then 0 else s.cfg.min.toInt) ∧
      v = (State.resetOf s.cfg s.tt).value

/-- R32: an event before the first hardware reset is refused. The flag is the model's (log 6). -/
def Obligations.EventBeforeResetIsRefused : Prop :=
  ∀ (s : State) (inp : Input s.cfg.w) (rest : List (Input s.cfg.w)),
    ValidConfig s.cfg s.tt → s.launched = false → s.inputs = inp :: rest → inp.hasEvent = true →
    step s = .refused .beforeReset

/-! ### The step -/

/-- R115, R20: a step performs the event that the next event word decodes to; around it the step takes the word away
from what is presented, and clears DIR_OUT unless the event is a SAMPLE. That an event word stands alone in its cycle
is the model's (log 5). -/
def Obligations.StepRunsTheDecodedEvent : Prop :=
  ∀ (s : State) (e : EventWord s.cfg.w) (rest : List (Input s.cfg.w)) (i : Instr),
    ValidConfig s.cfg s.tt → s.launched = true → s.inputs = .event e :: rest → decode e = .ok i →
    step s = andThen (exec i { s with inputs := rest })
      (fun t => .next (if isSampleEvent i then t else { t with dirOut := 0b00#2 }))

/-- R42, R53: a cycle performs the host command that its ports present, on the state at the start of the cycle, then
the SAMPLE on the state that this left; a cycle without a SAMPLE ends with DIR_OUT cleared. -/
def Obligations.CyclePerformsTheHostCommandThenTheSample : Prop :=
  ∀ (s : State) (p : Ports s.cfg.w) (rest : List (Input s.cfg.w)),
    ValidConfig s.cfg s.tt → s.launched = true → s.inputs = .ports p :: rest → p.rst = false →
    step s =
      andThen (if p.cmdValid then exec (portCommand p.cmd p.wdata) { s with inputs := rest }
        else .next { s with inputs := rest }) (fun s1 =>
          if p.smpValid then exec (.sample ⟨p.smp.getLsbD 1, p.smp.getLsbD 0⟩) s1
          else .next { s1 with dirOut := 0b00#2 })

/-- R53: the ports map to event codes as the rule says, and decoding is total on what they present; a host NOP leaves
what a cycle with no host event leaves. -/
def Obligations.PortsMapToEventCodes : Prop :=
  (∀ (w : Nat) (p : Ports w),
    (p.sampleWord = if p.smpValid then some ⟨0b00#2 ++ p.smp, none⟩ else none) ∧
    (p.hostWord = if p.cmdValid then some ⟨0b1#1 ++ p.cmd, if p.cmd = 0b100#3 then some p.wdata else none⟩ else none) ∧
    (∀ e ∈ p.sampleWord, decode e = .ok (.sample ⟨p.smp.getLsbD 1, p.smp.getLsbD 0⟩) ∧ e.agent = .sampleSource) ∧
    (∀ e ∈ p.hostWord, decode e = .ok (portCommand p.cmd p.wdata) ∧ e.agent = .host)) ∧
  (∀ c : EventCode, decodeCode c = none ↔ c = 0b1100#4) ∧
  (∀ (s : State) (p : Ports s.cfg.w) (rest : List (Input s.cfg.w)),
    s.launched = true → p.cmdValid = true → p.cmd = 0b000#3 →
    step { s with inputs := .ports p :: rest } = step { s with inputs := .ports { p with cmdValid := false } :: rest })

/-- R20, R47, R113: after any step DIR_OUT, and the output port `dir_o` that it drives, hold the outcome of that
step's SAMPLE, read from the table at the state before the step, and 0b00 where the step had none. For event words
this is the model's reading (log 5), and a step with nothing presented is an idle cycle (log 3). -/
def Obligations.DirOutIsAPulseOfOneCycle : Prop :=
  ∀ s t : State, step s = .next t →
    t.outputs.dirO = t.dirOut ∧
    match s.inputs with
    | [] => t.outputs.dirO = 0b00#2
    | .event e :: _ => t.outputs.dirO =
        if e.code.getLsbD 3 = false ∧ e.code.getLsbD 2 = false then
          dirBits (outcome (ttRead s.tt s.automaton ⟨e.code.getLsbD 1, e.code.getLsbD 0⟩))
        else 0b00#2
    | .ports p :: _ => t.outputs.dirO =
        if p.rst = false ∧ p.smpValid = true then
          dirBits (outcome (ttRead s.tt s.automaton ⟨p.smp.getLsbD 1, p.smp.getLsbD 0⟩))
        else 0b00#2

/-- R42: a clocked run without reset performs the events of its cycles one after another, each cycle's host command
before its SAMPLE, in a run of single events; the two runs end in the same state but for DIR_OUT. So the cycle order
is one of the interleavings of the transaction level. That an event word stands alone in its cycle is the model's (log
5). -/
def Obligations.ClockedRunIsAnEventRun : Prop :=
  ∀ (s : State) (ps : List (Ports s.cfg.w)),
    ValidConfig s.cfg s.tt → s.launched = true → (∀ p ∈ ps, p.rst = false) →
    ∃ t u : State,
      stepMany ps.length { s with inputs := ps.map .ports } = .next t ∧
      stepMany (ps.flatMap portWords).length { s with inputs := (ps.flatMap portWords).map .event } = .next u ∧
      { u with dirOut := t.dirOut } = t

/-- R27: no step changes CFG. R28: no step changes TT. -/
def Obligations.StepKeepsConfigurationAndTable : Prop :=
  ∀ s t : State, step s = .next t → t.cfg = s.cfg ∧ t.tt = s.tt

/-- R95, R96, R32 with R48: a step refuses only an invalid configuration, an event before reset, or an event word that
is no event (the last by log 7, the model's choice). -/
def Obligations.StepRefusesOnlyWhatTheSpecRefuses : Prop :=
  ∀ (s : State) (r : Refusal), step s = .refused r →
    (∃ q, r = .config q ∧ build (supplied s.cfg s.tt) = .error q) ∨
    (r = .beforeReset ∧ s.launched = false ∧ ∃ inp rest, s.inputs = inp :: rest ∧ inp.hasEvent = true) ∨
    (∃ d e rest, r = .malformedEvent d ∧ s.inputs = .event e :: rest ∧ decode e = .error d)

/-- R96, R115: on a valid configuration every event completes in one step, and so does every step of a launched block
whose next input is an event. -/
def Obligations.EveryEventCompletesInOneStep : Prop :=
  (∀ s : State, s.Ready → ∃ t, step s = .next t) ∧
  (∀ (s : State) (is : List Instr), ∃ t, execAll is s = .next t)

/-- R41: a read returns the value that the last event before it wrote, or the reset value if no event wrote it. VALUE:
READ and ANGLE after events that do not write it return what was there before; after events the last of whose writes
is a RESET, a SET or a SAMPLE with an outcome they return what that event writes (R80, R81, R77), the SAMPLE's from
the value that READ would have returned just before it. STATE: the same, with SAMPLE the only event that writes it
(R64). -/
def Obligations.ReadsReturnWhatTheLastWriteLeft : Prop :=
  (∀ (s : State) (is : List Instr), noValueWrite is s = true →
    ∃ t, execAll is s = .next t ∧ ReadsAs t s.value.toInt) ∧
  (∀ (s : State) (pre : List Instr) (i : Instr) (post : List Instr), ValidConfig s.cfg s.tt →
    ∃ u v t, execAll pre s = .next u ∧ exec i u = .next v ∧ execAll (pre ++ i :: post) s = .next t ∧
      (noValueWrite post v = true →
        (i = .reset → ReadsAs t (if s.cfg.policy = .unbounded then 0 else s.cfg.min.toInt)) ∧
        (∀ n, i = .set n → WellFormed s.cfg.w i = true → ∃ y, ReadsAs t y ∧ Normalizes s.cfg n y) ∧
        (∀ x z, i = .sample x → ReadsAs u z → (ttRead s.tt u.automaton x).getLsbD 4 = true →
          ∃ y, ReadsAs t y ∧ Normalizes s.cfg
            (z + if s.cfg.reverse then -(s.cfg.incr.toNat : Int) else s.cfg.incr.toNat) y) ∧
        (∀ x z, i = .sample x → ReadsAs u z → (ttRead s.tt u.automaton x).getLsbD 5 = true →
          ∃ y, ReadsAs t y ∧ Normalizes s.cfg
            (z + if s.cfg.reverse then (s.cfg.incr.toNat : Int) else -s.cfg.incr.toNat) y))) ∧
  (∀ (s : State) (is : List Instr), noStateWrite is = true →
    ∃ t, execAll is s = .next t ∧ StateReadsAs t s.automaton.code) ∧
  (∀ (s : State) (pre : List Instr) (x : PinSample) (post : List Instr), noStateWrite post = true →
    ∃ u t, execAll pre s = .next u ∧ execAll (pre ++ .sample x :: post) s = .next t ∧
      StateReadsAs t ((ttRead s.tt u.automaton x).extractLsb' 0 3)) ∧
  (∀ (c : Cfg) (tt : Table) (is : List Instr), ValidConfig c tt → ∃ t, execAll is (State.resetOf c tt) = .next t ∧
    (noValueWrite is (State.resetOf c tt) = true →
      ReadsAs t (if c.policy = .unbounded then 0 else c.min.toInt)) ∧
    (noStateWrite is = true → StateReadsAs t 0b000#3))

/-! ### Invariants -/

/-- R19, R20, R26, R27, R32, R68: every step keeps the invariant. The clause about ILLEGAL rests on TT_REF (log 2),
the one about `launched` on the model's form of R32 (log 6). -/
def Obligations.StepKeepsTheInvariant : Prop :=
  ∀ s t : State, s.Inv → step s = .next t → t.Inv

/-- The reset state of every valid configuration has the invariant, and so has `State.reset`, whose configuration is
the model's choice (log 1). -/
def Obligations.ResetStateHasTheInvariant : Prop :=
  State.reset.Inv ∧ ∀ (c : Cfg) (tt : Table), ValidConfig c tt → (State.resetOf c tt).Inv

/-- R33: what each event may write. Only SAMPLE writes STATE and DIR_OUT; only SAMPLE with an outcome, RESET and SET
write VALUE; nothing writes CFG, TT or the inputs; READ, ANGLE, STATE and SAMPLE return one result, the rest none. -/
def Obligations.OnlyTheListedEventsWriteEachRegister : Prop :=
  ∀ (i : Instr) (s : State), ∃ (a : Automaton) (v : Word s.cfg.w) (d : DirBits) (new : List Result),
    exec i s = .next { s with automaton := a, value := v, dirOut := d, results := new ++ s.results } ∧
    (isSampleEvent i = false → a = s.automaton ∧ d = s.dirOut) ∧
    (v = s.value ∨ i = .reset ∨ (∃ n, i = .set n) ∨
      ∃ x, i = .sample x ∧ outcome (ttRead s.tt s.automaton x) ≠ .none) ∧
    new.length = (if isSampleEvent i ∨ i = .read ∨ i = .angle ∨ i = .state then 1 else 0)

/-- R16, R82, R103: the outcomes that SAMPLEs return and the state they leave depend on the samples, the table and
STATE alone: not on the host's events, on CFG, on VALUE or on how the two agents interleave. -/
def Obligations.OutcomesDependOnTheSamplesAlone : Prop :=
  ∀ (s r : State) (is : List Instr), s.tt = r.tt → s.automaton = r.automaton →
    ∃ t u ds, execAll is s = .next t ∧ execAll (is.filter isSampleEvent) r = .next u ∧
      t.automaton = u.automaton ∧
      outcomesOf t.results = ds ++ outcomesOf s.results ∧ outcomesOf u.results = ds ++ outcomesOf r.results

/-! ### The decoder -/

/-- R64 with R63, R73 and R77: what SAMPLE does, for every table and configuration, and that it leaves all else. -/
def Obligations.SampleStepsTheDecoderAndAppliesTheOutcome : Prop :=
  ∀ (s : State) (x : PinSample), ValidConfig s.cfg s.tt →
    ∃ (v : Word s.cfg.w) (o : Direction),
      exec (.sample x) s = .next { s with
        automaton := Automaton.ofCode ((ttRead s.tt s.automaton x).extractLsb' 0 3)
        value := v
        dirOut := BitVec.ofBool (o == .ccw) ++ BitVec.ofBool (o == .cw)
        results := .direction o :: s.results } ∧
      (o = .cw ↔ (ttRead s.tt s.automaton x).getLsbD 4 = true) ∧
      (o = .ccw ↔ (ttRead s.tt s.automaton x).getLsbD 5 = true) ∧
      (o = .none → v = s.value) ∧
      (o = .cw → Normalizes s.cfg
        (s.value.toInt + if s.cfg.reverse then -(s.cfg.incr.toNat : Int) else s.cfg.incr.toNat) v.toInt) ∧
      (o = .ccw → Normalizes s.cfg
        (s.value.toInt + if s.cfg.reverse then (s.cfg.incr.toNat : Int) else -s.cfg.incr.toNat) v.toInt)

/-- R58: under TT_REF, SAMPLE goes to the state and returns the outcome of its cell of the grid. The entries of TT_REF
are from general knowledge (log 2). -/
def Obligations.SampleFollowsTheReferenceTable : Prop :=
  ∀ g ∈ referenceGrid, ∀ s : State, s.tt = tableRef → s.automaton = g.1 →
    ∃ v : Word s.cfg.w,
      exec (.sample g.2.1) s = .next { s with
        automaton := g.2.2.1, value := v, dirOut := dirBits g.2.2.2,
        results := .direction g.2.2.2 :: s.results } ∧
      (g.2.2.2 = .none → v = s.value)

/-- R34: TTRead is entry `4*s + x` of a ROM of 32 entries, every index holds an entry, and only SAMPLE reads it. -/
def Obligations.TableReadIsTheRomEntry : Prop :=
  (∀ tt : Table, (tableImage tt).length = 32) ∧
  (∀ (tt : Table) (a : Automaton) (x : PinSample),
    (tableImage tt)[4 * a.code.toNat + x.bits.toNat]? = some (ttRead tt a x)) ∧
  (∀ (i : Instr) (s u : State) (tt : Table), isSampleEvent i = false → exec i s = .next u →
    exec i { s with tt := tt } = .next { u with tt := tt })

/-- R63: the outcome of an entry; in an admitted table the two cases cannot overlap, and the other bits of the entry
do not matter. -/
def Obligations.OutcomeIsTheDirectionBitThatIsSet : Prop :=
  (∀ e : Entry, outcome e =
    if e.getLsbD 4 then .cw else if e.getLsbD 5 then .ccw else .none) ∧
  (∀ e f : Entry, e.getLsbD 4 = f.getLsbD 4 → e.getLsbD 5 = f.getLsbD 5 → outcome e = outcome f) ∧
  (∀ (c : Cfg) (tt : Table) (a : Automaton) (x : PinSample), ValidConfig c tt →
    ¬ ((ttRead tt a x).getLsbD 4 = true ∧ (ttRead tt a x).getLsbD 5 = true))

/-- R62, R97: from ILLEGAL every sample of TT_REF gives START, with no outcome and nothing else changed. The entries
of TT_REF are from general knowledge (log 2). -/
def Obligations.IllegalHealsOnTheNextSample : Prop :=
  ∀ (s : State) (x : PinSample), s.tt = tableRef → s.automaton = .illegal →
    exec (.sample x) s = .next { s with
      automaton := .start, dirOut := 0b00#2, results := .direction .none :: s.results }

/-- R65, R66: the canonical detents under TT_REF, from START: the states visited, the outcomes returned, and one step
of the accumulator. The spec derives this rule from others. The entries of TT_REF are from general knowledge (log 2).
-/
def Obligations.CanonicalDetentsEmitOnce : Prop :=
  ∀ s : State, s.tt = tableRef → s.automaton = .start →
    (∃ t1 t2 t3 t4, exec (.sample p10) s = .next t1 ∧ exec (.sample p00) t1 = .next t2 ∧
      exec (.sample p01) t2 = .next t3 ∧ exec (.sample p11) t3 = .next t4 ∧
      t1.automaton = .cw1 ∧ t2.automaton = .cw2 ∧ t3.automaton = .cw3 ∧
      t4 = { s.apply .cw with
        automaton := .start, dirOut := 0b01#2,
        results := .direction .cw :: .direction .none :: .direction .none :: .direction .none :: s.results }) ∧
    (∃ t1 t2 t3 t4, exec (.sample p01) s = .next t1 ∧ exec (.sample p00) t1 = .next t2 ∧
      exec (.sample p10) t2 = .next t3 ∧ exec (.sample p11) t3 = .next t4 ∧
      t1.automaton = .ccw1 ∧ t2.automaton = .ccw2 ∧ t3.automaton = .ccw3 ∧
      t4 = { s.apply .ccw with
        automaton := .start, dirOut := 0b10#2,
        results := .direction .ccw :: .direction .none :: .direction .none :: .direction .none :: s.results })

/-- R67: under TT_REF the sample 11 gives START from every state, after any events; START can be reached from every
state; and only a sample 11 that goes to START emits. The spec derives this rule from others. The entries of TT_REF
are from general knowledge (log 2). -/
def Obligations.SampleElevenResynchronizes : Prop :=
  ∀ s : State, s.tt = tableRef →
    (∀ is : List Instr, ∃ t, execAll (is ++ [.sample p11]) s = .next t ∧ t.automaton = .start) ∧
    (∀ x : PinSample, ∃ t o, exec (.sample x) s = .next t ∧ t.results = .direction o :: s.results ∧
      (o ≠ .none → x = p11 ∧ t.automaton = .start))

/-- R68: no entry of TT_REF has next state ILLEGAL, reset gives START, and no sequence of events from there leads to
ILLEGAL. The spec derives this rule from others. The entries of TT_REF are from general knowledge (log 2). -/
def Obligations.IllegalIsUnreachableUnderTheReferenceTable : Prop :=
  (∀ (a : Automaton) (x : PinSample), (ttRead tableRef a x).extractLsb' 0 3 ≠ 0b111#3) ∧
  (∀ c : Cfg, (State.resetOf c tableRef).automaton = .start) ∧
  (∀ (s : State) (is : List Instr), s.tt = tableRef → s.automaton ≠ .illegal →
    ∃ t, execAll is s = .next t ∧ t.automaton ≠ .illegal)

/-- R69: under TT_REF a repeated sample returns None and leaves the state, but for the four transitions of the rule,
after which it leaves START as listed; none of the exceptional transitions emits, and each follows a change of both
pin levels. The spec derives this rule from others. The entries of TT_REF are from general knowledge (log 2). -/
def Obligations.RepeatedSampleLeavesStateAndReturnsNoneButInFourCases : Prop :=
  ∀ (s : State) (x : PinSample), s.tt = tableRef → s.automaton ≠ .illegal →
    ∃ t u o, exec (.sample x) s = .next t ∧ exec (.sample x) t = .next u ∧
      t.results = .direction o :: s.results ∧ u.results = .direction .none :: t.results ∧
      (∀ a, (s.automaton, x, a) ∈ repeatExceptions → t.automaton = .start ∧ o = .none ∧ u.automaton = a ∧
        ∃ p, pinsOfState s.automaton = some p ∧ oneBit p x = false) ∧
      ((∀ a, (s.automaton, x, a) ∉ repeatExceptions) → u.automaton = t.automaton)

/-- R70: every single-sample perturbation of a canonical detent emits the detent's own outcome once or nothing: of the
32 sequences per direction, counted as the rule makes them, 13 do the first and 19 the second. A bounce after the
first, second or third sample of a detent of either direction leaves exactly the detent's own outcome where the
rotation then goes on to rest, and no outcome where it turns back to rest. The spec derives this rule from others. The
entries of TT_REF are from general knowledge (log 2). -/
def Obligations.PerturbedDetentEmitsOnceOrNothing : Prop :=
  (perturbations cwSamples).length = 32 ∧ (perturbations ccwSamples).length = 32 ∧
  ∀ s : State, s.tt = tableRef → s.automaton = .start →
    ((perturbations cwSamples).filter fun xs => emissions (samples xs) s = some [.cw]).length = 13 ∧
    ((perturbations cwSamples).filter fun xs => emissions (samples xs) s = some []).length = 19 ∧
    ((perturbations ccwSamples).filter fun xs => emissions (samples xs) s = some [.ccw]).length = 13 ∧
    ((perturbations ccwSamples).filter fun xs => emissions (samples xs) s = some []).length = 19 ∧
    ∀ k, 1 ≤ k → k ≤ 3 →
      emissions (samples (bounceAt k cwSamples)) s = some [.cw] ∧
      emissions (samples (turnBackAt k cwSamples)) s = some [] ∧
      emissions (samples (bounceAt k ccwSamples)) s = some [.ccw] ∧
      emissions (samples (turnBackAt k ccwSamples)) s = some []

/-- R71, the count law: from START with the pins at 11, after every sequence of samples that changes at most one bit
at a time, `4 * (#CW - #CCW) = P - r` with `r` fixed by the state, and the state occurs with the pin level the table
gives; at pin level 11 the state is START and the count is exact. The spec derives this rule from others. The entries
of TT_REF are from general knowledge (log 2). -/
def Obligations.CountLawForOneBitSequences : Prop :=
  ∀ (s : State) (xs : List PinSample), s.tt = tableRef → s.automaton = .start → follows p11 xs = true →
    ∃ t new, execAll (samples xs) s = .next t ∧ t.results = new ++ s.results ∧
      pinsOfState t.automaton = some (pinsAfter p11 xs) ∧
      4 * netCount (outcomesOf new) = motion p11 xs - quarterResidual t.automaton ∧
      (pinsAfter p11 xs = p11 → t.automaton = .start ∧ 4 * netCount (outcomesOf new) = motion p11 xs) ∧
      |4 * netCount (outcomesOf new) - motion p11 xs| < 4

/-- R108: reset with the pins anywhere; at the first sample 11 of a sequence that changes at most one bit at a time
the count is off by at most three quarter steps, and the state is START, from where the count law holds. The spec
derives this rule from others. The entries of TT_REF are from general knowledge (log 2). -/
def Obligations.OffRestResetErrsByLessThanOneDetent : Prop :=
  ∀ (s : State) (p : PinSample) (xs : List PinSample), s.tt = tableRef → s.automaton = .start →
    p11 ∉ xs → follows p (xs ++ [p11]) = true →
    ∃ t new, execAll (samples (xs ++ [p11])) s = .next t ∧ t.results = new ++ s.results ∧
      t.automaton = .start ∧ |4 * netCount (outcomesOf new) - motion p (xs ++ [p11])| ≤ 3

/-! ### The accumulator -/

/-- R74: under Unbounded, `Norm` reduces into the signed W-bit range and is the identity there; VALUE holds the result
exactly. -/
def Obligations.UnboundedNormalizationWrapsAtTheWidth : Prop :=
  ∀ (s : State) (z : Int), ValidConfig s.cfg s.tt → s.cfg.policy = .unbounded →
    -(2 : Int) ^ (s.cfg.w - 1) ≤ rangeNorm s.cfg z ∧ rangeNorm s.cfg z < (2 : Int) ^ (s.cfg.w - 1) ∧
    (2 : Int) ^ s.cfg.w ∣ z - rangeNorm s.cfg z ∧
    (-(2 : Int) ^ (s.cfg.w - 1) ≤ z ∧ z < (2 : Int) ^ (s.cfg.w - 1) → rangeNorm s.cfg z = z) ∧
    (s.writeValue (rangeNorm s.cfg z)).value.toInt = rangeNorm s.cfg z

/-- R75: under Wrap, `Norm` is MIN plus the non-negative remainder modulo `M = MAX - MIN + 1`, it lies in the range,
and VALUE holds it exactly; `M` is between 1 and 2^W. -/
def Obligations.WrapNormalizationIsTheRemainderInTheRange : Prop :=
  ∀ (s : State) (z : Int), ValidConfig s.cfg s.tt → s.cfg.policy = .wrap →
    1 ≤ rangeSize s.cfg ∧ rangeSize s.cfg ≤ (2 : Int) ^ s.cfg.w ∧
    (∃ k : Int, 0 ≤ k ∧ k < s.cfg.max.toInt - s.cfg.min.toInt + 1 ∧
      (s.cfg.max.toInt - s.cfg.min.toInt + 1) ∣ (z - s.cfg.min.toInt) - k ∧ rangeNorm s.cfg z = s.cfg.min.toInt + k) ∧
    s.cfg.min.toInt ≤ rangeNorm s.cfg z ∧ rangeNorm s.cfg z ≤ s.cfg.max.toInt ∧
    (s.writeValue (rangeNorm s.cfg z)).value.toInt = rangeNorm s.cfg z

/-- R76: under Bounded, `Norm` clamps; what goes past a bound is discarded; VALUE holds the result exactly. -/
def Obligations.BoundedNormalizationClamps : Prop :=
  ∀ (s : State) (z : Int), ValidConfig s.cfg s.tt → s.cfg.policy = .bounded →
    (z < s.cfg.min.toInt → rangeNorm s.cfg z = s.cfg.min.toInt) ∧
    (s.cfg.max.toInt < z → rangeNorm s.cfg z = s.cfg.max.toInt) ∧
    (s.cfg.min.toInt ≤ z ∧ z ≤ s.cfg.max.toInt → rangeNorm s.cfg z = z) ∧
    s.cfg.min.toInt ≤ rangeNorm s.cfg z ∧ rangeNorm s.cfg z ≤ s.cfg.max.toInt ∧
    (s.writeValue (rangeNorm s.cfg z)).value.toInt = rangeNorm s.cfg z

/-- R87: under Wrap and Bounded, APPLY, RESET, SET and hardware reset leave VALUE in range; READ, ANGLE, STATE and NOP
write nothing; so every sequence of events keeps VALUE in range. The spec derives this rule from others. -/
def Obligations.WritesLeaveValueInRange : Prop :=
  ∀ s : State, ValidConfig s.cfg s.tt →
    (∀ o, o ≠ .none → (s.apply o).InRange) ∧ (s.InRange → ∀ o, (s.apply o).InRange) ∧
    (∃ t, exec .reset s = .next t ∧ t.InRange) ∧ (∀ v, ∃ t, exec (.set v) s = .next t ∧ t.InRange) ∧
    s.hardwareReset.InRange ∧
    (∀ i ∈ [Instr.read, .angle, .state, .nop], ∃ r, exec i s = .next { s with results := r }) ∧
    (s.InRange → ∀ is, ∃ t, execAll is s = .next t ∧ t.InRange)

/-- R88: under Wrap, `Norm(Norm(a) + b) = Norm(a + b)`; after any samples VALUE is the start value moved by the sum of
the Deltas, modulo M; with INCR = 1 and REVERSE = 0, M clockwise outcomes return VALUE to where it started. The spec
derives this rule from others. -/
def Obligations.WrapNormalizationComposes : Prop :=
  ∀ s : State, ValidConfig s.cfg s.tt → s.cfg.policy = .wrap →
    (∀ a b : Int, rangeNorm s.cfg (rangeNorm s.cfg a + b) = rangeNorm s.cfg (a + b)) ∧
    (s.InRange → ∀ xs : List PinSample, ∃ t new, execAll (samples xs) s = .next t ∧ t.results = new ++ s.results ∧
      t.value.toInt = s.cfg.min.toInt +
        (s.value.toInt - s.cfg.min.toInt + deltaSum s.cfg (outcomesOf new)) % rangeSize s.cfg ∧
      (s.cfg.incr.toNat = 1 → s.cfg.reverse = false →
        emitted (outcomesOf new) = List.replicate (rangeSize s.cfg).toNat .cw → t.value.toInt = s.value.toInt))

/-- R65 with R88 (E5 at any range): from rest under TT_REF and Wrap with INCR = 1, M clockwise detents return VALUE
and STATE to where they started. The spec derives this rule from others. The entries of TT_REF are from general
knowledge (log 2). -/
def Obligations.FullTurnOfDetentsReturnsTheValue : Prop :=
  ∀ s : State, ValidConfig s.cfg s.tt → s.cfg.policy = .wrap → s.tt = tableRef → s.automaton = .start →
    s.InRange → s.cfg.incr.toNat = 1 →
    ∃ r d, execAll (detentsCw (rangeSize s.cfg).toNat) s = .next { s with results := r, dirOut := d } ∧
      emitted (outcomesOf r) = List.replicate (rangeSize s.cfg).toNat .cw ++ emitted (outcomesOf s.results)

/-- R89: under Bounded, increments that the upper bound discards are lost: from MAX, any number of clockwise detents
and then one counter-clockwise detent gives MAX - INCR, or MIN if that is lower. The spec derives this rule from
others. The entries of TT_REF are from general knowledge (log 2). -/
def Obligations.DiscardedIncrementsAreLost : Prop :=
  ∀ (s : State) (n : Nat), ValidConfig s.cfg s.tt → s.cfg.policy = .bounded → s.cfg.reverse = false →
    s.tt = tableRef → s.automaton = .start → s.value = s.cfg.max →
    ∃ t, execAll (detentsCw n ++ detentsCcw 1) s = .next t ∧
      t.value.toInt = max s.cfg.min.toInt (s.cfg.max.toInt - s.cfg.incr.toNat)

/-- R85 at every width: under Unbounded with INCR = 1 and REVERSE = 0, a clockwise outcome at the top of the range
gives the bottom and a counter-clockwise one at the bottom gives the top; nothing else records it. -/
def Obligations.UnboundedOverflowWrapsAround : Prop :=
  ∀ (s : State) (x : PinSample), ValidConfig s.cfg s.tt → s.cfg.policy = .unbounded → s.cfg.incr.toNat = 1 →
    s.cfg.reverse = false →
    ∃ (a : Automaton) (v : Word s.cfg.w) (o : Direction),
      exec (.sample x) s = .next { s with
        automaton := a, value := v, dirOut := dirBits o, results := .direction o :: s.results } ∧
      o = outcome (ttRead s.tt s.automaton x) ∧
      (o = .cw → s.value.toInt = (2 : Int) ^ (s.cfg.w - 1) - 1 → v.toInt = -(2 : Int) ^ (s.cfg.w - 1)) ∧
      (o = .ccw → s.value.toInt = -(2 : Int) ^ (s.cfg.w - 1) → v.toInt = (2 : Int) ^ (s.cfg.w - 1) - 1)

/-- R86: under Bounded the sum is not reduced to W bits before it is clamped: at a VALUE from which one increment
passes MAX, the result is MAX even where the sum passes the signed W-bit range, and likewise at MIN. -/
def Obligations.SumIsExactBeforeItIsClamped : Prop :=
  ∀ (s : State), ValidConfig s.cfg s.tt → s.cfg.policy = .bounded → s.cfg.reverse = false → s.InRange →
    (s.cfg.max.toInt ≤ s.value.toInt + s.cfg.incr.toNat → (s.apply .cw).value = s.cfg.max) ∧
    (s.value.toInt - s.cfg.incr.toNat ≤ s.cfg.min.toInt → (s.apply .ccw).value = s.cfg.min)

/-- R91: with INCR = 0 an outcome does not change VALUE; SAMPLE still returns it and DIR_OUT still records it. The
spec derives this rule from others. -/
def Obligations.ZeroIncrementLeavesValue : Prop :=
  ∀ (s : State) (x : PinSample), ValidConfig s.cfg s.tt → s.InRange → s.cfg.incr.toNat = 0 →
    exec (.sample x) s = .next { s with
      automaton := entryNext (ttRead s.tt s.automaton x)
      dirOut := dirBits (outcome (ttRead s.tt s.automaton x))
      results := .direction (outcome (ttRead s.tt s.automaton x)) :: s.results }

/-- R92: with MIN = MAX under Wrap or Bounded, APPLY, RESET and SET all write MIN, and VALUE is MIN in every state
that a sequence of events reaches from one where it is MIN, as hardware reset leaves it. The spec derives this rule
from others. -/
def Obligations.OneValueRangeHoldsMin : Prop :=
  ∀ s : State, ValidConfig s.cfg s.tt → s.cfg.policy ≠ .unbounded → s.cfg.min = s.cfg.max →
    (∀ o, o ≠ .none → (s.apply o).value.toInt = s.cfg.min.toInt) ∧
    exec .reset s = .next { s with value := s.cfg.min } ∧
    (∀ v, exec (.set v) s = .next { s with value := s.cfg.min }) ∧
    s.hardwareReset.value = s.cfg.min ∧
    (s.value = s.cfg.min → ∀ is, ∃ t, execAll is s = .next t ∧ t.value.toInt = s.cfg.min.toInt)

/-- R93: Wrap over the whole signed range normalizes as Unbounded does, and every event but RESET does what it does
under Unbounded; RESET writes MIN. Under Wrap an increment larger than the range is reduced modulo M. The spec derives
this rule from others. -/
def Obligations.WidestWrapIsUnboundedButForReset : Prop :=
  (∀ s : State, ValidConfig s.cfg s.tt → s.cfg.policy = .wrap →
    s.cfg.min.toInt = -(2 : Int) ^ (s.cfg.w - 1) → s.cfg.max.toInt = (2 : Int) ^ (s.cfg.w - 1) - 1 →
    rangeSize s.cfg = (2 : Int) ^ s.cfg.w ∧ (∀ z, rangeNorm s.cfg z = wrapW s.cfg.w z) ∧
    (∀ (i : Instr) (t : State), i ≠ .reset → exec i s = .next t →
      exec i { s with cfg := { s.cfg with policy := .unbounded } } =
        .next { t with cfg := { t.cfg with policy := .unbounded } }) ∧
    exec .reset s = .next { s with value := s.cfg.min } ∧
    exec .reset { s with cfg := { s.cfg with policy := .unbounded } } =
      .next { s with cfg := { s.cfg with policy := .unbounded }, value := 0 }) ∧
  (∀ (c : Cfg) (tt : Table) (v : Int), ValidConfig c tt → c.policy = .wrap →
    rangeNorm c (v + c.incr.toNat) = rangeNorm c (v + c.incr.toNat % rangeSize c))

/-! ### The host commands -/

/-- R78: READ returns `sext_W(VALUE)` and writes nothing; two READs with no event between them return the same; after
a SET under Unbounded it returns the operand; at the ports the result is `value_o`, from before a SAMPLE of the cycle.
-/
def Obligations.ReadReturnsTheValue : Prop :=
  (∀ s : State, exec .read s = .next { s with results := .value s.value.toInt :: s.results }) ∧
  (∀ s : State, execAll [.read, .read] s =
    .next { s with results := .value s.value.toInt :: .value s.value.toInt :: s.results }) ∧
  (∀ (s : State) (v : Int), ValidConfig s.cfg s.tt → s.cfg.policy = .unbounded → WellFormed s.cfg.w (.set v) = true →
    ∃ t, execAll [.set v, .read] s = .next t ∧ t.results = .value v :: s.results) ∧
  CommandReturns 0b001#3 (fun _ o => .value o.valueO.toInt)

/-- R79: ANGLE returns `sext_W(VALUE)`, as READ does in every configuration, and writes nothing; under Wrap{0,359}
what it returns is between 0 and 359; at the ports the result is `angle_o`, which is VALUE again. -/
def Obligations.AngleReturnsTheValue : Prop :=
  (∀ s : State, exec .angle s = .next { s with results := .value s.value.toInt :: s.results }) ∧
  (∀ s : State, exec .angle s = exec .read s) ∧
  (∀ s : State, s.outputs.angleO = s.outputs.valueO) ∧
  (∀ s : State, ValidConfig s.cfg s.tt → s.cfg.policy = .wrap → s.cfg.min.toInt = 0 → s.cfg.max.toInt = 359 →
    s.InRange → ∃ a t, exec .angle s = .next t ∧ t.results = .value a :: s.results ∧ 0 ≤ a ∧ a ≤ 359) ∧
  CommandReturns 0b010#3 (fun _ o => .value o.angleO.toInt)

/-- R80: RESET writes R0 and nothing else, not STATE and not DIR_OUT; it is idempotent, keeps R19, and does not abort
a traversal in progress: from CW_3 under TT_REF the next sample 11 still emits CW and adds its step to the reset
value. The clause about CW_3 rests on an entry of TT_REF, which is from general knowledge (log 2). -/
def Obligations.ResetWritesTheResetValueAlone : Prop :=
  ∀ s : State, ValidConfig s.cfg s.tt →
    ∃ v : Word s.cfg.w,
      exec .reset s = .next { s with value := v } ∧
      v.toInt = (if s.cfg.policy = .unbounded then 0 else s.cfg.min.toInt) ∧
      exec .reset { s with value := v } = .next { s with value := v } ∧
      State.InRange { s with value := v } ∧
      (s.tt = tableRef → s.automaton = .cw3 → ∃ u : Word s.cfg.w,
        exec (.sample p11) { s with value := v } = .next { s with
          automaton := .start, value := u, dirOut := 0b01#2, results := .direction .cw :: s.results } ∧
        Normalizes s.cfg (v.toInt + if s.cfg.reverse then -(s.cfg.incr.toNat : Int) else s.cfg.incr.toNat) u.toInt)

/-- R81: SET writes the normalized operand in one write and nothing else, for every operand, in range or not; under
Unbounded the operand itself; it is idempotent. -/
def Obligations.SetWritesTheNormalizedOperand : Prop :=
  ∀ (s : State) (v : Int), ValidConfig s.cfg s.tt → WellFormed s.cfg.w (.set v) = true →
    ∃ r : Word s.cfg.w,
      exec (.set v) s = .next { s with value := r } ∧ Normalizes s.cfg v r.toInt ∧
      (s.cfg.policy = .unbounded → r.toInt = v) ∧
      exec (.set v) { s with value := r } = .next { s with value := r }

/-- R82: STATE returns the code of STATE and writes nothing, and no other event depends on whether STATE was read; at
the ports the result is `state_o`. -/
def Obligations.StateReturnsTheCode : Prop :=
  (∀ s : State, exec .state s = .next { s with results := .code s.automaton.code :: s.results }) ∧
  (∀ (s t u : State) (i : Instr), exec .state s = .next t → exec i s = .next u →
    ∃ new, u.results = new ++ s.results ∧ exec i t = .next { u with results := new ++ t.results }) ∧
  CommandReturns 0b101#3 (fun _ o => .code o.stateO)

/-- R52, R83: NOP and the reserved codes read nothing, write nothing and return nothing; the sample port cannot
produce a reserved code. -/
def Obligations.NopAndReservedCodesDoNothing : Prop :=
  (∀ s : State, exec .nop s = .next s ∧
    (∀ x, exec (.reservedS x) s = .next s) ∧ (∀ x, exec (.reservedH x) s = .next s)) ∧
  (∀ (w : Nat) (p : Ports w), ∀ e ∈ p.sampleWord, e.code.extractLsb' 2 2 ≠ 0b01#2)

/-- R40: reads have no side effects and repeat their result; RESET and SET performed twice leave the state that once
leaves; SAMPLE in general does not. -/
def Obligations.ReadsAndHostWritesAreRepeatable : Prop :=
  (∀ i ∈ [Instr.read, .angle, .state], ∀ s : State, ∃ r,
    exec i s = .next { s with results := r :: s.results } ∧
    execAll [i, i] s = .next { s with results := r :: r :: s.results }) ∧
  (∀ s : State, execAll [.reset, .reset] s = exec .reset s) ∧
  (∀ (s : State) (v : Int), execAll [.set v, .set v] s = exec (.set v) s) ∧
  (∃ (s t u : State) (x : PinSample), s.Inv ∧ exec (.sample x) s = .next t ∧ exec (.sample x) t = .next u ∧
    u.automaton ≠ t.automaton)
end

