-- ==== Sys2Proof/Laws/State.lean ====
section
/-! SUPPORT. One lemma per field per update of State, so that no later proof unfolds a record update.
The type of `value` and of `inputs` depends on `cfg`, so the lemmas for VALUE speak of its integer, and those for the
inputs are not simp lemmas: a rewrite of either field in place would change a type. -/

namespace Sys2Proof.Machine

open Sys2Proof

section writeValue
variable (s : State) (z : Int)
@[simp] theorem writeValue_cfg : (s.writeValue z).cfg = s.cfg := rfl
@[simp] theorem writeValue_tt : (s.writeValue z).tt = s.tt := rfl
@[simp] theorem writeValue_automaton : (s.writeValue z).automaton = s.automaton := rfl
@[simp] theorem writeValue_value_toInt : (s.writeValue z).value.toInt = (BitVec.ofInt s.cfg.w z).toInt := rfl
@[simp] theorem writeValue_dirOut : (s.writeValue z).dirOut = s.dirOut := rfl
@[simp] theorem writeValue_launched : (s.writeValue z).launched = s.launched := rfl
theorem writeValue_inputs : (s.writeValue z).inputs = s.inputs := rfl
@[simp] theorem writeValue_results : (s.writeValue z).results = s.results := rfl
end writeValue

section writeAutomaton
variable (s : State) (a : Automaton)
@[simp] theorem writeAutomaton_cfg : (s.writeAutomaton a).cfg = s.cfg := rfl
@[simp] theorem writeAutomaton_tt : (s.writeAutomaton a).tt = s.tt := rfl
@[simp] theorem writeAutomaton_automaton : (s.writeAutomaton a).automaton = a := rfl
@[simp] theorem writeAutomaton_value_toInt : (s.writeAutomaton a).value.toInt = s.value.toInt := rfl
@[simp] theorem writeAutomaton_dirOut : (s.writeAutomaton a).dirOut = s.dirOut := rfl
@[simp] theorem writeAutomaton_launched : (s.writeAutomaton a).launched = s.launched := rfl
theorem writeAutomaton_inputs : (s.writeAutomaton a).inputs = s.inputs := rfl
@[simp] theorem writeAutomaton_results : (s.writeAutomaton a).results = s.results := rfl
end writeAutomaton

section writeDirOut
variable (s : State) (o : Direction)
@[simp] theorem writeDirOut_cfg : (s.writeDirOut o).cfg = s.cfg := rfl
@[simp] theorem writeDirOut_tt : (s.writeDirOut o).tt = s.tt := rfl
@[simp] theorem writeDirOut_automaton : (s.writeDirOut o).automaton = s.automaton := rfl
@[simp] theorem writeDirOut_value_toInt : (s.writeDirOut o).value.toInt = s.value.toInt := rfl
@[simp] theorem writeDirOut_dirOut : (s.writeDirOut o).dirOut = dirBits o := rfl
@[simp] theorem writeDirOut_launched : (s.writeDirOut o).launched = s.launched := rfl
theorem writeDirOut_inputs : (s.writeDirOut o).inputs = s.inputs := rfl
@[simp] theorem writeDirOut_results : (s.writeDirOut o).results = s.results := rfl
end writeDirOut

section apply
variable (s : State) (o : Direction)
@[simp] theorem apply_cfg : (s.apply o).cfg = s.cfg := rfl
@[simp] theorem apply_tt : (s.apply o).tt = s.tt := rfl
@[simp] theorem apply_automaton : (s.apply o).automaton = s.automaton := rfl
@[simp] theorem apply_value_toInt : (s.apply o).value.toInt = (applied s.cfg s.value o).toInt := rfl
@[simp] theorem apply_dirOut : (s.apply o).dirOut = s.dirOut := rfl
@[simp] theorem apply_launched : (s.apply o).launched = s.launched := rfl
theorem apply_inputs : (s.apply o).inputs = s.inputs := rfl
@[simp] theorem apply_results : (s.apply o).results = s.results := rfl
end apply

section returns
variable (s : State) (r : Result)
@[simp] theorem returns_cfg : (s.returns r).cfg = s.cfg := rfl
@[simp] theorem returns_tt : (s.returns r).tt = s.tt := rfl
@[simp] theorem returns_automaton : (s.returns r).automaton = s.automaton := rfl
@[simp] theorem returns_value_toInt : (s.returns r).value.toInt = s.value.toInt := rfl
@[simp] theorem returns_dirOut : (s.returns r).dirOut = s.dirOut := rfl
@[simp] theorem returns_launched : (s.returns r).launched = s.launched := rfl
theorem returns_inputs : (s.returns r).inputs = s.inputs := rfl
@[simp] theorem returns_results : (s.returns r).results = r :: s.results := rfl
end returns

section dropInput
variable (s : State)
@[simp] theorem dropInput_cfg : s.dropInput.cfg = s.cfg := rfl
@[simp] theorem dropInput_tt : s.dropInput.tt = s.tt := rfl
@[simp] theorem dropInput_automaton : s.dropInput.automaton = s.automaton := rfl
@[simp] theorem dropInput_value_toInt : s.dropInput.value.toInt = s.value.toInt := rfl
@[simp] theorem dropInput_dirOut : s.dropInput.dirOut = s.dirOut := rfl
@[simp] theorem dropInput_launched : s.dropInput.launched = s.launched := rfl
theorem dropInput_inputs : s.dropInput.inputs = s.inputs.tail := rfl
@[simp] theorem dropInput_results : s.dropInput.results = s.results := rfl
end dropInput

section hardwareReset
variable (s : State)
@[simp] theorem hardwareReset_cfg : s.hardwareReset.cfg = s.cfg := rfl
@[simp] theorem hardwareReset_tt : s.hardwareReset.tt = s.tt := rfl
@[simp] theorem hardwareReset_automaton : s.hardwareReset.automaton = .start := rfl
@[simp] theorem hardwareReset_value_toInt : s.hardwareReset.value.toInt = (BitVec.ofInt s.cfg.w (resetValue s.cfg)).toInt := rfl
@[simp] theorem hardwareReset_dirOut : s.hardwareReset.dirOut = dirBits .none := rfl
@[simp] theorem hardwareReset_launched : s.hardwareReset.launched = true := rfl
theorem hardwareReset_inputs : s.hardwareReset.inputs = s.inputs := rfl
@[simp] theorem hardwareReset_results : s.hardwareReset.results = s.results := rfl
end hardwareReset

section resetOf
variable (c : Cfg) (tt : Table)
@[simp] theorem resetOf_cfg : (State.resetOf c tt).cfg = c := rfl
@[simp] theorem resetOf_tt : (State.resetOf c tt).tt = tt := rfl
@[simp] theorem resetOf_automaton : (State.resetOf c tt).automaton = .start := rfl
@[simp] theorem resetOf_value_toInt : (State.resetOf c tt).value.toInt = (BitVec.ofInt c.w (resetValue c)).toInt := rfl
@[simp] theorem resetOf_dirOut : (State.resetOf c tt).dirOut = dirBits .none := rfl
@[simp] theorem resetOf_launched : (State.resetOf c tt).launched = true := rfl
theorem resetOf_inputs : (State.resetOf c tt).inputs = [] := rfl
@[simp] theorem resetOf_results : (State.resetOf c tt).results = [] := rfl
end resetOf

end Sys2Proof.Machine
end

