-- ==== Sys2Proof/Laws/Arith.lean ====
section
/-! SUPPORT. What a valid configuration gives (R26), and the arithmetic of R9 and R73 to R76: each function once. -/

namespace Sys2Proof.Machine

open Sys2Proof

/-! ### Powers of two -/

theorem two_pow_split {w : Nat} (h : 1 ≤ w) : (2 : Int) ^ w = 2 * 2 ^ (w - 1) := by
  obtain ⟨n, rfl⟩ : ∃ n, w = n + 1 := ⟨w - 1, by omega⟩
  simp [pow_succ, mul_comm]

theorem two_pow_pos (n : Nat) : (0 : Int) < 2 ^ n := by positivity

/-- Writing an integer that fits in signed `w` bits and reading it back gives it (R8). -/
theorem toInt_ofInt_of_fits {w : Nat} {z : Int} (hw : 1 ≤ w) (lo : -(2 : Int) ^ (w - 1) ≤ z)
    (hi : z < (2 : Int) ^ (w - 1)) : (BitVec.ofInt w z).toInt = z := by
  have h2 := two_pow_split hw
  rw [BitVec.toInt_ofInt]
  apply Int.bmod_eq_of_le
  · push_cast; rw [h2]; omega
  · push_cast; rw [h2]; omega

theorem toInt_bounds {w : Nat} (v : Word w) :
    -(2 : Int) ^ (w - 1) ≤ v.toInt ∧ v.toInt < (2 : Int) ^ (w - 1) := by
  have h1 := BitVec.le_toInt v
  have h2 := BitVec.toInt_lt (x := v)
  exact ⟨h1, h2⟩

@[simp] theorem ofInt_toInt {w : Nat} (v : Word w) : BitVec.ofInt w v.toInt = v := BitVec.ofInt_toInt

/-- An operand that fits is received unchanged (R50). -/
theorem setOperand_of_fits {w : Nat} {v : Int} (h : WellFormed w (.set v) = true) : setOperand w v = v := by
  simp only [WellFormed, fitsSigned, Bool.and_eq_true, decide_eq_true_eq] at h
  rcases Nat.eq_zero_or_pos w with rfl | hw
  · simp only [pow_zero] at h
    have : v = 0 := by omega
    subst this
    rfl
  · have h2 := two_pow_split hw
    exact toInt_ofInt_of_fits hw (by omega) (by omega)

/-! ### Valid configurations -/

theorem checkConfig_none {c : Supplied} : checkConfig c = none ↔ ∀ r, checkFails c r = false := by
  constructor
  · intro h r
    unfold checkConfig at h
    cases r <;> (split_ifs at h; simp_all)
  · intro h
    simp [checkConfig, h]

theorem checkFails_minGtMax {c : Supplied} : checkFails c .minGtMax = true ↔
    (c.policy = 0b01#2 ∨ c.policy = 0b10#2) ∧ c.max.toInt < c.min.toInt := by
  simp [checkFails]

theorem checkFails_policyReserved {c : Supplied} : checkFails c .policyReserved = true ↔ c.policy = 0b11#2 := by
  simp [checkFails]

theorem checkFails_incrRange {c : Supplied} :
    checkFails c .incrRange = true ↔ 2 ^ c.w < 2 * (c.incr.toNat + 1) := by
  simp [checkFails]

theorem checkFails_width {c : Supplied} : checkFails c .width = true ↔ c.w < 2 := by
  simp [checkFails]

theorem checkFails_ttMalformed {c : Supplied} : checkFails c .ttMalformed = true ↔ tableAdmitted c.tt = false := by
  simp [checkFails]

theorem policyCode_ne_reserved (p : Policy) : policyCode p ≠ 0b11#2 := by cases p <;> decide

theorem policyCode_bounded_or_wrap (p : Policy) :
    (policyCode p = 0b01#2 ∨ policyCode p = 0b10#2) ↔ p ≠ .unbounded := by cases p <;> decide

theorem validConfig_iff {c : Cfg} {tt : Table} :
    ValidConfig c tt ↔ (c.policy ≠ .unbounded → c.min.toInt ≤ c.max.toInt) ∧
      2 * (c.incr.toNat + 1) ≤ 2 ^ c.w ∧ 2 ≤ c.w ∧ tableAdmitted tt = true := by
  unfold ValidConfig checkBuilt
  rw [checkConfig_none]
  have h1 : checkFails (supplied c tt) .minGtMax = true ↔ c.policy ≠ .unbounded ∧ c.max.toInt < c.min.toInt := by
    rw [checkFails_minGtMax]
    exact and_congr (policyCode_bounded_or_wrap c.policy) Iff.rfl
  have h2 : ¬ checkFails (supplied c tt) .policyReserved = true := by
    rw [checkFails_policyReserved]
    exact policyCode_ne_reserved c.policy
  have h3 : checkFails (supplied c tt) .incrRange = true ↔ 2 ^ c.w < 2 * (c.incr.toNat + 1) := checkFails_incrRange
  have h4 : checkFails (supplied c tt) .width = true ↔ c.w < 2 := checkFails_width
  have h5 : checkFails (supplied c tt) .ttMalformed = true ↔ tableAdmitted tt = false := checkFails_ttMalformed
  constructor
  · intro h
    rw [h] at h1 h3 h4 h5
    refine ⟨fun hp => ?_, ?_, ?_, ?_⟩
    · by_contra hlt
      exact absurd (h1.2 ⟨hp, not_le.1 hlt⟩) (by simp)
    · by_contra hlt
      exact absurd (h3.2 (not_le.1 hlt)) (by simp)
    · by_contra hlt
      exact absurd (h4.2 (not_le.1 hlt)) (by simp)
    · cases ht : tableAdmitted tt
      · exact absurd (h5.2 ht) (by simp)
      · rfl
  · rintro ⟨b1, b3, b4, b5⟩ r
    rw [← Bool.not_eq_true]
    cases r
    · rw [h1]
      exact fun hh => absurd (b1 hh.1) (not_le.2 hh.2)
    · exact h2
    · rw [h3]
      exact not_lt.2 b3
    · rw [h4]
      exact not_lt.2 b4
    · rw [h5, b5]
      simp

section valid
variable {c : Cfg} {tt : Table} (h : ValidConfig c tt)
include h

theorem ValidConfig.width : 2 ≤ c.w := (validConfig_iff.1 h).2.2.1

theorem ValidConfig.bounds (hp : c.policy ≠ .unbounded) : c.min.toInt ≤ c.max.toInt :=
  (validConfig_iff.1 h).1 hp

theorem ValidConfig.incr_lt : (c.incr.toNat : Int) < 2 ^ (c.w - 1) := by
  have h1 := (validConfig_iff.1 h).2.1
  have h2 := two_pow_split (w := c.w) (by have := h.width; omega)
  have h3 : ((2 * (c.incr.toNat + 1) : Nat) : Int) ≤ ((2 ^ c.w : Nat) : Int) := by exact_mod_cast h1
  push_cast at h3
  omega

theorem ValidConfig.rangeSize_pos (hp : c.policy ≠ .unbounded) : 1 ≤ rangeSize c := by
  have := h.bounds hp
  simp only [rangeSize]
  omega

end valid

theorem ttRead_mem_image (tt : Table) (a : Automaton) (x : PinSample) : ttRead tt a x ∈ tableImage tt := by
  obtain ⟨clk, dt⟩ := x
  cases a <;> cases clk <;> cases dt <;> simp [ttRead, rowRead, tableRow, tableImage, rowEntries]

/-- An entry of an admitted table (R60, R72). -/
theorem ValidConfig.entry {c : Cfg} {tt : Table} (h : ValidConfig c tt) (a : Automaton) (x : PinSample) :
    entryAdmitted (ttRead tt a x) = true := by
  have h5 := (validConfig_iff.1 h).2.2.2
  exact List.all_eq_true.1 h5 _ (ttRead_mem_image tt a x)

/-! ### Normalization -/

theorem wrapW_bounds {w : Nat} (hw : 1 ≤ w) (z : Int) :
    -(2 : Int) ^ (w - 1) ≤ wrapW w z ∧ wrapW w z < (2 : Int) ^ (w - 1) := by
  have h2 := two_pow_split hw
  have hp := two_pow_pos (w - 1)
  have h3 := Int.emod_nonneg (z + 2 ^ (w - 1)) (b := (2 : Int) ^ w) (by omega)
  have h4 := Int.emod_lt_of_pos (z + 2 ^ (w - 1)) (b := (2 : Int) ^ w) (by omega)
  unfold wrapW
  omega

theorem wrapW_of_fits {w : Nat} (hw : 1 ≤ w) {z : Int} (lo : -(2 : Int) ^ (w - 1) ≤ z)
    (hi : z < (2 : Int) ^ (w - 1)) : wrapW w z = z := by
  have h2 := two_pow_split hw
  unfold wrapW
  rw [Int.emod_eq_of_lt (by omega) (by omega)]
  omega

theorem dvd_sub_wrapW (w : Nat) (z : Int) : (2 : Int) ^ w ∣ z - wrapW w z := by
  have h := Int.dvd_self_sub_emod (x := z + 2 ^ (w - 1)) (m := (2 : Int) ^ w)
  unfold wrapW
  have e : z - ((z + 2 ^ (w - 1)) % 2 ^ w - 2 ^ (w - 1)) = z + 2 ^ (w - 1) - (z + 2 ^ (w - 1)) % 2 ^ w := by ring
  rw [e]
  exact h

theorem rangeNorm_unbounded {c : Cfg} (hp : c.policy = .unbounded) (z : Int) : rangeNorm c z = wrapW c.w z := by
  simp [rangeNorm, hp]

theorem rangeNorm_wrap {c : Cfg} (hp : c.policy = .wrap) (z : Int) :
    rangeNorm c z = c.min.toInt + (z - c.min.toInt) % rangeSize c := by
  simp [rangeNorm, hp]

theorem rangeNorm_bounded {c : Cfg} (hp : c.policy = .bounded) (z : Int) :
    rangeNorm c z = clamp z c.min.toInt c.max.toInt := by
  simp [rangeNorm, hp]

/-- Under Wrap and Bounded every integer is normalized into `[MIN, MAX]`. -/
theorem rangeNorm_mem {c : Cfg} {tt : Table} (h : ValidConfig c tt) (hp : c.policy ≠ .unbounded) (z : Int) :
    c.min.toInt ≤ rangeNorm c z ∧ rangeNorm c z ≤ c.max.toInt := by
  have hb := h.bounds hp
  cases hpol : c.policy
  · exact absurd hpol hp
  · have hm := h.rangeSize_pos hp
    have h1 := Int.emod_nonneg (z - c.min.toInt) (b := rangeSize c) (by omega)
    have h2 := Int.emod_lt_of_pos (z - c.min.toInt) (b := rangeSize c) (by omega)
    rw [rangeNorm_wrap hpol]
    have : rangeSize c = c.max.toInt - c.min.toInt + 1 := rfl
    omega
  · rw [rangeNorm_bounded hpol]
    unfold clamp
    omega

/-- The normalized value fits in signed W bits (R74 to R76). -/
theorem rangeNorm_fits {c : Cfg} {tt : Table} (h : ValidConfig c tt) (z : Int) :
    -(2 : Int) ^ (c.w - 1) ≤ rangeNorm c z ∧ rangeNorm c z < (2 : Int) ^ (c.w - 1) := by
  have hw : 1 ≤ c.w := by have := h.width; omega
  by_cases hp : c.policy = .unbounded
  · rw [rangeNorm_unbounded hp]
    exact wrapW_bounds hw z
  · have h1 := rangeNorm_mem h hp z
    have h2 := toInt_bounds c.min
    have h3 := toInt_bounds c.max
    omega

/-- A value in the range of the policy is normalized to itself. -/
theorem rangeNorm_of_mem {c : Cfg} {tt : Table} (h : ValidConfig c tt) {z : Int}
    (hz : -(2 : Int) ^ (c.w - 1) ≤ z ∧ z < (2 : Int) ^ (c.w - 1))
    (hr : c.policy ≠ .unbounded → c.min.toInt ≤ z ∧ z ≤ c.max.toInt) : rangeNorm c z = z := by
  cases hpol : c.policy
  · rw [rangeNorm_unbounded hpol]
    exact wrapW_of_fits (by have := h.width; omega) hz.1 hz.2
  · have hb := hr (by simp [hpol])
    rw [rangeNorm_wrap hpol, Int.emod_eq_of_lt (by omega) (by simp only [rangeSize]; omega)]
    omega
  · have hb := hr (by simp [hpol])
    rw [rangeNorm_bounded hpol]
    unfold clamp
    omega

/-- VALUE holds a normalized value exactly. -/
theorem toInt_writeValue_rangeNorm {s : State} (h : ValidConfig s.cfg s.tt) (z : Int) :
    (BitVec.ofInt s.cfg.w (rangeNorm s.cfg z)).toInt = rangeNorm s.cfg z :=
  toInt_ofInt_of_fits (by have := h.width; omega) (rangeNorm_fits h z).1 (rangeNorm_fits h z).2

/-- R0 fits in signed W bits. -/
theorem toInt_resetValue (c : Cfg) :
    (BitVec.ofInt c.w (resetValue c)).toInt = if c.policy = .unbounded then 0 else c.min.toInt := by
  cases hpol : c.policy <;> simp [resetValue, hpol]

end Sys2Proof.Machine
end

