-- ==== Sys2Proof/Laws/Ops.lean ====
section
/-! SUPPORT. What the shared operations and the events do, each said once: APPLY (R77), the events (R64, R78 to R83,
R52), and sequences of events (R41). -/

namespace Sys2Proof.Machine

open Sys2Proof

/-! ### Going on from a next state -/

@[simp] theorem andThen_next (s : State) (f) : andThen (.next s) f = f s := rfl
@[simp] theorem andThen_refused (r : Refusal) (f) : andThen (.refused r) f = .refused r := rfl

theorem andThen_eq_next {o f t} : andThen o f = .next t ↔ ∃ s, o = .next s ∧ f s = .next t := by
  cases o <;> simp [andThen]

/-! ### APPLY -/

@[simp] theorem applied_none (c : Cfg) (v : Word c.w) : applied c v .none = v := rfl

@[simp] theorem delta_none (c : Cfg) : delta c .none = 0 := rfl

/-- VALUE after an outcome, as an integer (R77). -/
theorem toInt_applied {c : Cfg} {tt : Table} (h : ValidConfig c tt) (v : Word c.w) {o : Direction} (ho : o ≠ .none) :
    (applied c v o).toInt = rangeNorm c (v.toInt + delta c o) := by
  have hf := fun z => toInt_ofInt_of_fits (w := c.w) (by have := h.width; omega)
    (rangeNorm_fits h z).1 (rangeNorm_fits h z).2
  cases o
  · exact absurd rfl ho
  · exact hf _
  · exact hf _

/-- Where VALUE is in range, APPLY of any outcome normalizes the moved value (R77); None moves it by 0. -/
theorem toInt_applied_of_inRange {c : Cfg} {tt : Table} (h : ValidConfig c tt) (v : Word c.w)
    (hr : c.policy ≠ .unbounded → c.min.toInt ≤ v.toInt ∧ v.toInt ≤ c.max.toInt) (o : Direction) :
    (applied c v o).toInt = rangeNorm c (v.toInt + delta c o) := by
  by_cases ho : o = .none
  · subst ho
    simp only [applied_none, delta_none, add_zero]
    exact (rangeNorm_of_mem h (toInt_bounds v) hr).symm
  · exact toInt_applied h v ho

theorem delta_bounds (c : Cfg) (o : Direction) : -(c.incr.toNat : Int) ≤ delta c o ∧ delta c o ≤ c.incr.toNat := by
  cases o <;> simp only [delta] <;> (try split_ifs) <;> omega

/-! ### The events, one equation each -/

theorem exec_sample (x : PinSample) (s : State) : exec (.sample x) s = .next { s with
    automaton := entryNext (ttRead s.tt s.automaton x)
    value := applied s.cfg s.value (outcome (ttRead s.tt s.automaton x))
    dirOut := dirBits (outcome (ttRead s.tt s.automaton x))
    results := .direction (outcome (ttRead s.tt s.automaton x)) :: s.results } := rfl

/-- SAMPLE where the entry read is known by its next state and its outcome. -/
theorem exec_sample_of {x : PinSample} {s : State} {a : Automaton} {o : Direction}
    (ha : entryNext (ttRead s.tt s.automaton x) = a) (ho : outcome (ttRead s.tt s.automaton x) = o) :
    exec (.sample x) s = .next { s with
      automaton := a
      value := applied s.cfg s.value o
      dirOut := dirBits o
      results := .direction o :: s.results } := by
  rw [exec_sample, ha, ho]

theorem exec_reservedS (x : BitVec 2) (s : State) : exec (.reservedS x) s = .next s := rfl
theorem exec_nop (s : State) : exec .nop s = .next s := rfl
theorem exec_read (s : State) : exec .read s = .next (s.returns (.value s.value.toInt)) := rfl
theorem exec_angle (s : State) : exec .angle s = .next (s.returns (.value s.value.toInt)) := rfl
theorem exec_reset (s : State) : exec .reset s = .next (s.writeValue (resetValue s.cfg)) := rfl
theorem exec_set (v : Int) (s : State) :
    exec (.set v) s = .next (s.writeValue (rangeNorm s.cfg (setOperand s.cfg.w v))) := rfl
theorem exec_state (s : State) : exec .state s = .next (s.returns (.code s.automaton.code)) := rfl
theorem exec_reservedH (x : BitVec 1) (s : State) : exec (.reservedH x) s = .next s := rfl

/-- What any event answers: a next state that differs in the three registers and the results at most. -/
theorem exec_shape (i : Instr) (s : State) : ∃ (a : Automaton) (v : Word s.cfg.w) (d : DirBits) (new : List Result),
    exec i s = .next { s with automaton := a, value := v, dirOut := d, results := new ++ s.results } := by
  cases i with
  | sample x => exact ⟨_, _, _, [_], exec_sample x s⟩
  | reservedS x => exact ⟨_, _, _, [], rfl⟩
  | nop => exact ⟨_, _, _, [], rfl⟩
  | read => exact ⟨_, _, _, [_], exec_read s⟩
  | angle => exact ⟨_, _, _, [_], exec_angle s⟩
  | reset => exact ⟨_, _, _, [], exec_reset s⟩
  | set v => exact ⟨_, _, _, [], exec_set v s⟩
  | state => exact ⟨_, _, _, [_], exec_state s⟩
  | reservedH x => exact ⟨_, _, _, [], rfl⟩

theorem exec_next_cfg {i : Instr} {s t : State} (h : exec i s = .next t) :
    t.cfg = s.cfg ∧ t.tt = s.tt ∧ t.launched = s.launched := by
  obtain ⟨a, v, d, new, he⟩ := exec_shape i s
  rw [h] at he
  cases he
  exact ⟨rfl, rfl, rfl⟩

/-! ### Sequences of events -/

@[simp] theorem execAll_nil (s : State) : execAll [] s = .next s := rfl
theorem execAll_cons (i : Instr) (is : List Instr) (s : State) :
    execAll (i :: is) s = andThen (exec i s) (execAll is) := rfl

/-- An event answers a next state from any state (R96). -/
theorem exec_next (i : Instr) (s : State) : ∃ t, exec i s = .next t := by
  obtain ⟨a, v, d, new, he⟩ := exec_shape i s
  exact ⟨_, he⟩

/-- Events performed one after another are performed as one sequence (R41). -/
theorem execAll_of_next {i : Instr} {s t : State} (h : exec i s = .next t) (is : List Instr) :
    execAll (i :: is) s = execAll is t := by
  rw [execAll_cons, h, andThen_next]

/-- A sequence of events answers a next state from any state. -/
theorem execAll_next (is : List Instr) (s : State) : ∃ t, execAll is s = .next t := by
  induction is generalizing s with
  | nil => exact ⟨s, rfl⟩
  | cons i is ih =>
    obtain ⟨a, v, d, new, he⟩ := exec_shape i s
    rw [execAll_cons, he]
    exact ih _

/-- A sequence of events cut in two is performed as its parts, one after the other (R41). -/
theorem execAll_append (is js : List Instr) (s : State) :
    execAll (is ++ js) s = andThen (execAll is s) (execAll js) := by
  induction is generalizing s with
  | nil => rfl
  | cons i is ih =>
    obtain ⟨t, he⟩ := exec_next i s
    rw [List.cons_append, execAll_of_next he, execAll_of_next he, ih]

theorem execAll_next_cfg {is : List Instr} {s t : State} (h : execAll is s = .next t) :
    t.cfg = s.cfg ∧ t.tt = s.tt ∧ t.launched = s.launched := by
  induction is generalizing s with
  | nil => cases h; exact ⟨rfl, rfl, rfl⟩
  | cons i is ih =>
    obtain ⟨u, hu, hn⟩ := andThen_eq_next.1 h
    obtain ⟨hc, ht, hl⟩ := exec_next_cfg hu
    obtain ⟨hc', ht', hl'⟩ := ih hn
    exact ⟨hc'.trans hc, ht'.trans ht, hl'.trans hl⟩

/-! ### What is not written -/

/-- An event that does not write VALUE leaves it. -/
theorem exec_value_of_not_write {i : Instr} {s t : State} (h : exec i s = .next t) (hw : writesValue i s = false) :
    t.value.toInt = s.value.toInt := by
  cases i <;> cases h <;> first | rfl | (simp only [writesValue] at hw; contradiction) | skip
  rename_i x
  have ho : outcome (ttRead s.tt s.automaton x) = .none := by simpa [writesValue] using hw
  show (applied s.cfg s.value (outcome (ttRead s.tt s.automaton x))).toInt = _
  rw [ho, applied_none]

theorem execAll_value_of_noValueWrite {is : List Instr} {s t : State} (h : execAll is s = .next t)
    (hw : noValueWrite is s = true) : t.value.toInt = s.value.toInt := by
  induction is generalizing s with
  | nil => cases h; rfl
  | cons i is ih =>
    obtain ⟨u, hu, hn⟩ := andThen_eq_next.1 h
    simp only [noValueWrite, hu, Bool.and_eq_true, Bool.not_eq_true'] at hw
    rw [ih hn hw.2, exec_value_of_not_write hu hw.1]

/-- An event that is no SAMPLE leaves STATE. -/
theorem exec_automaton_of_not_sample {i : Instr} {s t : State} (h : exec i s = .next t)
    (hi : isSampleEvent i = false) : t.automaton = s.automaton := by
  cases i <;> cases h <;> first | rfl | (simp only [isSampleEvent] at hi; contradiction)

theorem execAll_automaton_of_noStateWrite {is : List Instr} {s t : State} (h : execAll is s = .next t)
    (hw : noStateWrite is = true) : t.automaton = s.automaton := by
  induction is generalizing s with
  | nil => cases h; rfl
  | cons i is ih =>
    obtain ⟨u, hu, hn⟩ := andThen_eq_next.1 h
    simp only [noStateWrite, List.all_cons, Bool.and_eq_true, Bool.not_eq_true'] at hw
    rw [ih hn hw.2, exec_automaton_of_not_sample hu hw.1]

end Sys2Proof.Machine
end

