-- ==== Sys2Proof/Laws/PerInstr.lean ====
section
/-! SUPPORT. Statements for all events, made one constructor at a time. -/

namespace Sys2Proof.Laws.TableRow

open Sys2Proof

/-- The `mask` and the `match` of the event's row in spec/opcode_table.json. -/
def row : Instr → EventCode × EventCode
  | .sample _ => (0b1100#4, 0b0000#4)
  | .reservedS _ => (0b1100#4, 0b0100#4)
  | .nop => (0b1111#4, 0b1000#4)
  | .read => (0b1111#4, 0b1001#4)
  | .angle => (0b1111#4, 0b1010#4)
  | .reset => (0b1111#4, 0b1011#4)
  | .set _ => (0b1111#4, 0b1100#4)
  | .state => (0b1111#4, 0b1101#4)
  | .reservedH _ => (0b1110#4, 0b1110#4)

/-- The code of the event matches its own row of the opcode table. -/
def Statement (i : Instr) : Prop := encodeCode i &&& (row i).1 = (row i).2

theorem sample (x : PinSample) : Statement (.sample x) := by
  rcases x with ⟨c, d⟩
  cases c <;> cases d <;> (unfold Statement; decide)

theorem reservedS (x : BitVec 2) : Statement (.reservedS x) := by
  revert x; unfold Statement; decide

theorem nop : Statement .nop := by unfold Statement; decide

theorem read : Statement .read := by unfold Statement; decide

theorem angle : Statement .angle := by unfold Statement; decide

theorem reset : Statement .reset := by unfold Statement; decide

theorem set (v : Int) : Statement (.set v) := by
  show setCode &&& 0b1111#4 = 0b1100#4
  decide

theorem state : Statement .state := by unfold Statement; decide

theorem reservedH (x : BitVec 1) : Statement (.reservedH x) := by
  revert x; unfold Statement; decide

end Sys2Proof.Laws.TableRow
end

