-- ==== Sys2Proof/Laws/Samples.lean ====
section
/-! SUPPORT. A run of SAMPLE events as a run of the decoder alone, whose outcomes move VALUE one after another. -/

namespace Sys2Proof.Machine

open Sys2Proof

/-- The state and the outcomes, first outcome first, of a run of samples. -/
def decoderRun (tt : Table) : Automaton → List PinSample → Automaton × List Direction
  | a, [] => (a, [])
  | a, x :: xs =>
    let r := decoderRun tt (entryNext (ttRead tt a x)) xs
    (r.1, outcome (ttRead tt a x) :: r.2)

theorem decoderRun_cons (tt : Table) (a : Automaton) (x : PinSample) (xs : List PinSample) :
    decoderRun tt a (x :: xs) = ((decoderRun tt (entryNext (ttRead tt a x)) xs).1,
      outcome (ttRead tt a x) :: (decoderRun tt (entryNext (ttRead tt a x)) xs).2) := rfl

theorem decoderRun_append (tt : Table) (a : Automaton) (xs ys : List PinSample) :
    decoderRun tt a (xs ++ ys) = ((decoderRun tt (decoderRun tt a xs).1 ys).1,
      (decoderRun tt a xs).2 ++ (decoderRun tt (decoderRun tt a xs).1 ys).2) := by
  induction xs generalizing a with
  | nil => rfl
  | cons x xs ih => simp [decoderRun_cons, ih]

/-- What a run of SAMPLE events does (R64). -/
theorem execAll_samples (s : State) (xs : List PinSample) : ∃ d : DirBits,
    execAll (samples xs) s = .next { s with
      automaton := (decoderRun s.tt s.automaton xs).1
      value := (decoderRun s.tt s.automaton xs).2.foldl (applied s.cfg) s.value
      dirOut := d
      results := ((decoderRun s.tt s.automaton xs).2.map .direction).reverse ++ s.results } := by
  induction xs generalizing s with
  | nil => exact ⟨s.dirOut, rfl⟩
  | cons x xs ih =>
    obtain ⟨d, hd⟩ := ih { s with
      automaton := entryNext (ttRead s.tt s.automaton x)
      value := applied s.cfg s.value (outcome (ttRead s.tt s.automaton x))
      dirOut := dirBits (outcome (ttRead s.tt s.automaton x))
      results := .direction (outcome (ttRead s.tt s.automaton x)) :: s.results }
    refine ⟨d, ?_⟩
    rw [samples, List.map_cons, execAll_of_next (exec_sample x s)]
    refine hd.trans ?_
    simp [decoderRun_cons]

/-- The outcomes among results that SAMPLEs returned. -/
theorem outcomesOf_map_direction (ds : List Direction) : outcomesOf (ds.map .direction) = ds := by
  simp [outcomesOf, List.filterMap_map]

theorem outcomesOf_append (rs qs : List Result) : outcomesOf (rs ++ qs) = outcomesOf rs ++ outcomesOf qs := by
  simp [outcomesOf]

/-- What a run of SAMPLE events emits is what the run of the decoder emits. -/
theorem emissions_samples (s : State) (xs : List PinSample) :
    emissions (samples xs) s = some (emitted (decoderRun s.tt s.automaton xs).2) := by
  obtain ⟨d, hd⟩ := execAll_samples s xs
  simp [emissions, hd, ← List.map_reverse, outcomesOf_map_direction, emitted, List.filter_reverse]

theorem netCount_append (ds es : List Direction) : netCount (ds ++ es) = netCount ds + netCount es := by
  induction ds with
  | nil => simp [netCount]
  | cons d ds ih => cases d <;> simp [netCount, ih] <;> omega

theorem netCount_reverse (ds : List Direction) : netCount ds.reverse = netCount ds := by
  induction ds with
  | nil => rfl
  | cons d ds ih =>
    rw [List.reverse_cons, netCount_append, ih]
    cases d <;> simp [netCount] <;> omega

theorem deltaSum_append (c : Cfg) (ds es : List Direction) :
    deltaSum c (ds ++ es) = deltaSum c ds + deltaSum c es := by
  induction ds with
  | nil => simp [deltaSum]
  | cons d ds ih => simp only [List.cons_append, deltaSum, ih]; omega

theorem deltaSum_reverse (c : Cfg) (ds : List Direction) : deltaSum c ds.reverse = deltaSum c ds := by
  induction ds with
  | nil => rfl
  | cons d ds ih =>
    rw [List.reverse_cons, deltaSum_append, ih]
    simp only [deltaSum]
    omega

end Sys2Proof.Machine
end

