-- ==== Sys2Proof/Laws/Step.lean ====
section
/-! SUPPORT. What a step can do, said once: the cases of a step that answers a next state, and the words of the
ports. -/

namespace Sys2Proof.Machine

open Sys2Proof

/-! ### Event words -/

@[simp] theorem endCycle_true (s : State) : s.endCycle true = s := rfl
@[simp] theorem endCycle_false (s : State) : s.endCycle false = s.writeDirOut .none := rfl

/-- The event of a code is a SAMPLE exactly when `EV[3:2] = 00` (R51). -/
theorem isSampleEvent_decodeCode (c : EventCode) : (decodeCode c).map isSampleEvent =
    if c = setCode then none else some (c.extractLsb' 2 2 == 0b00#2) := by
  revert c
  decide

/-- An event word that decodes is a SAMPLE word exactly when its event is a SAMPLE. -/
theorem isSample_of_decode {w : Nat} {e : EventWord w} {i : Instr} (h : decode e = .ok i) :
    e.isSample = isSampleEvent i := by
  obtain ⟨code, operand⟩ := e
  have hc := isSampleEvent_decodeCode code
  unfold decode at h
  split at h <;> simp_all [EventWord.isSample]
  subst h
  rfl

/-! ### Steps -/

theorem step_of_valid {s : State} (h : ValidConfig s.cfg s.tt) : step s =
    match s.inputs with
    | [] => idleCycle s
    | inp :: _ => runInput inp s.dropInput := by
  have hn : checkBuilt s.cfg s.tt = none := h
  unfold step
  split
  · simp_all
  · rfl

/-- What a step that answers a next state has done. -/
theorem step_next_cases {s t : State} (h : step s = .next t) :
    ValidConfig s.cfg s.tt ∧
    ((s.inputs = [] ∧ t = s.writeDirOut .none) ∨
     (∃ e rest i u, s.inputs = .event e :: rest ∧ s.launched = true ∧ decode e = .ok i ∧
        exec i s.dropInput = .next u ∧ t = u.endCycle (isSampleEvent i)) ∨
     (∃ p rest, s.inputs = .ports p :: rest ∧ p.rst = true ∧ t = s.dropInput.hardwareReset) ∨
     (∃ p rest u v, s.inputs = .ports p :: rest ∧ p.rst = false ∧
        (s.launched = true ∨ p.smpValid = false ∧ p.cmdValid = false) ∧
        performPort p.hostWord s.dropInput = .next u ∧ performPort p.sampleWord u = .next v ∧
        t = v.endCycle p.smpValid)) := by
  unfold step at h
  split at h
  · exact absurd h (by simp)
  · rename_i hv
    refine ⟨hv, ?_⟩
    split at h
    · rename_i hin
      simp only [idleCycle, endCycle_false, Host.Outcome.next.injEq] at h
      exact .inl ⟨hin, h.symm⟩
    · rename_i inp rest hin
      unfold runInput at h
      split at h
      · exact absurd h (by simp)
      · rename_i hl
        split at h
        · rename_i e
          refine .inr (.inl ?_)
          unfold eventCycle at h
          obtain ⟨u, hu, ht⟩ := andThen_eq_next.1 h
          unfold performWord at hu
          split at hu
          · rename_i i hd
            refine ⟨e, rest, i, u, hin, ?_, hd, hu, ?_⟩
            · simpa [Input.hasEvent] using hl
            · rw [← isSample_of_decode hd]
              simpa using ht.symm
          · exact absurd hu (by simp)
        · rename_i p
          unfold clockCycle at h
          split at h
          · rename_i hr
            exact .inr (.inr (.inl ⟨p, rest, hin, hr, by simpa using h.symm⟩))
          · rename_i hr
            obtain ⟨u, hu, h'⟩ := andThen_eq_next.1 h
            obtain ⟨v, hv', ht⟩ := andThen_eq_next.1 h'
            have hr' : p.rst = false := by simpa using hr
            refine .inr (.inr (.inr ⟨p, rest, u, v, hin, hr', ?_, hu, hv', by simpa using ht.symm⟩))
            by_contra hc
            rw [not_or, Bool.not_eq_true] at hc
            apply hl
            simp only [dropInput_launched, hc.1, Input.hasEvent, hr', Bool.not_false, Bool.true_and, Bool.or_eq_true]
            by_contra hn
            exact hc.2 (by simpa using hn)

/-- What the event of a port leaves: a state that differs in the three registers and the results at most. -/
theorem performPort_next {w : Nat} {e : Option (EventWord w)} {s t : State} (h : performPort e s = .next t) :
    ∃ (a : Automaton) (v : Word s.cfg.w) (d : DirBits) (new : List Result),
      t = { s with automaton := a, value := v, dirOut := d, results := new ++ s.results } := by
  cases e with
  | none =>
    simp only [performPort, Host.Outcome.next.injEq] at h
    exact ⟨_, _, _, [], h.symm⟩
  | some e =>
    simp only [performPort, performWord] at h
    split at h
    · rename_i i hd
      obtain ⟨a, v, d, new, he⟩ := exec_shape i s
      rw [he] at h
      cases h
      exact ⟨a, v, d, new, rfl⟩
    · exact absurd h (by simp)

end Sys2Proof.Machine
end

