-- ==== Sys2Proof/Tests/Slice0.lean ====
section
/-! SUPPORT. Tests of single steps, with expected values from spec/95_test_vectors.md and from the spec's tables, and
for every obligation that has hypotheses a state and operands that meet them. -/

namespace Sys2Proof.Tests

open Sys2Proof Sys2Proof.Machine

/-! ### Small states -/

def cfgOf (p : Policy) (w : Nat) (lo hi : Int) (incr : Nat) (reverse : Bool) : Cfg where
  w := w
  policy := p
  min := BitVec.ofInt w lo
  max := BitVec.ofInt w hi
  incr := BitVec.ofNat w incr
  reverse := reverse

/-- A launched state under TT_REF with nothing presented. -/
def st (c : Cfg) (a : Automaton) (v : Int) : State where
  cfg := c
  tt := tableRef
  automaton := a
  value := BitVec.ofInt c.w v
  dirOut := 0b00#2
  launched := true
  inputs := []
  results := []

def portsOf (w : Nat) (smp : Option (BitVec 2)) (cmd : Option (BitVec 3 × Int)) : Ports w where
  rst := false
  smpValid := smp.isSome
  smp := smp.getD 0
  cmdValid := cmd.isSome
  cmd := (cmd.getD (0, 0)).1
  wdata := BitVec.ofInt w (cmd.getD (0, 0)).2

/-- What the tests look at after a step: STATE, VALUE, DIR_OUT and the results. -/
def seen : Host.Outcome State Fault Refusal → Option (Automaton × Int × DirBits × List Result)
  | .next s => some (s.automaton, s.value.toInt, s.dirOut, s.results)
  | .fault _ => none
  | .refused _ => none

def unb8 : Cfg := cfgOf .unbounded 8 0 0 1 false
def unb32 : Cfg := cfgOf .unbounded 32 0 0 1 false
def wrap8 : Cfg := cfgOf .wrap 8 (-5) 5 3 false
def wrapOne : Cfg := cfgOf .wrap 8 7 7 1 false
def wrapWide : Cfg := cfgOf .wrap 8 (-128) 127 1 false
def angle32 : Cfg := cfgOf .wrap 32 0 359 1 false
def bnd8 : Cfg := cfgOf .bounded 8 0 10 1 false
def bndTop : Cfg := cfgOf .bounded 32 0 2147483647 1 false
def bndZero : Cfg := cfgOf .bounded 32 0 100 0 false

theorem valid_unb8 : ValidConfig unb8 tableRef := by unfold ValidConfig; decide
theorem valid_unb32 : ValidConfig unb32 tableRef := by unfold ValidConfig; decide
theorem valid_wrap8 : ValidConfig wrap8 tableRef := by unfold ValidConfig; decide
theorem valid_wrapOne : ValidConfig wrapOne tableRef := by unfold ValidConfig; decide
theorem valid_wrapWide : ValidConfig wrapWide tableRef := by unfold ValidConfig; decide
theorem valid_angle32 : ValidConfig angle32 tableRef := by unfold ValidConfig; decide
theorem valid_bnd8 : ValidConfig bnd8 tableRef := by unfold ValidConfig; decide
theorem valid_bndTop : ValidConfig bndTop tableRef := by unfold ValidConfig; decide
theorem valid_bndZero : ValidConfig bndZero tableRef := by unfold ValidConfig; decide

/-! ### Well-formedness (R50, R56): the SET operand at the ends of signed 8 bits -/

theorem test_set_above_the_range_is_ill_formed : WellFormed 8 (.set 128) = false := by decide
theorem test_set_below_the_range_is_ill_formed : WellFormed 8 (.set (-129)) = false := by decide
theorem test_set_at_the_ends_is_well_formed :
    WellFormed 8 (.set 127) = true ∧ WellFormed 8 (.set (-128)) = true := by decide

/-! ### Decoding (R51): words written out from the table -/

theorem test_decode_sample : decode (w := 8) ⟨0b0010#4, none⟩ = .ok (.sample ⟨true, false⟩) := by decide
theorem test_decode_reserved_s : decode (w := 8) ⟨0b0110#4, none⟩ = .ok (.reservedS 0b10#2) := by decide
theorem test_decode_nop : decode (w := 8) ⟨0b1000#4, none⟩ = .ok .nop := by decide
theorem test_decode_read : decode (w := 8) ⟨0b1001#4, none⟩ = .ok .read := by decide
theorem test_decode_angle : decode (w := 8) ⟨0b1010#4, none⟩ = .ok .angle := by decide
theorem test_decode_reset : decode (w := 8) ⟨0b1011#4, none⟩ = .ok .reset := by decide
theorem test_decode_set : decode ⟨0b1100#4, some 0x80#8⟩ = .ok (.set (-128)) := by decide
theorem test_decode_state : decode (w := 8) ⟨0b1101#4, none⟩ = .ok .state := by decide
theorem test_decode_reserved_h : decode (w := 8) ⟨0b1110#4, none⟩ = .ok (.reservedH 0#1) := by decide
theorem test_decode_set_without_operand : decode (w := 8) ⟨0b1100#4, none⟩ = .error .missingOperand := by decide
theorem test_decode_read_with_operand : decode ⟨0b1001#4, some 0x01#8⟩ = .error .strayOperand := by decide

/-- The rows of spec/opcode_table.json, each with its match in the low bits of a byte. -/
theorem test_table_words :
    [0x00, 0x04, 0x08, 0x09, 0x0A, 0x0B, 0x0C, 0x0D, 0x0E].map (decodeTableWord 8) =
      [some (.sample ⟨false, false⟩), some (.reservedS 0#2), some .nop, some .read, some .angle, some .reset,
        some (.set 0), some .state, some (.reservedH 0#1)] := by decide

theorem test_fetch_word_runs_first_after_reset :
    [0x02, 0x01, 0x04, 0x08, 0x09, 0x0A, 0x0B, 0x0C, 0x0D, 0x0E].map
        (fun n => seen (step (State.reset.withFetchWord 8 n))) =
      [some (.cw1, 0, 0b00#2, [.direction .none]), some (.ccw1, 0, 0b00#2, [.direction .none]),
        some (.start, 0, 0b00#2, []), some (.start, 0, 0b00#2, []), some (.start, 0, 0b00#2, [.value 0]),
        some (.start, 0, 0b00#2, [.value 0]), some (.start, 0, 0b00#2, []), some (.start, 0, 0b00#2, []),
        some (.start, 0, 0b00#2, [.code 0b000#3]), some (.start, 0, 0b00#2, [])] := by decide

/-! ### SAMPLE: T1.16, T1.28; Delta and Norm: T3 -/

theorem test_sample_cw_T1_16 :
    seen (exec (.sample p11) (st angle32 .cw3 5)) = some (.start, 6, 0b01#2, [.direction .cw]) := by decide
theorem test_sample_ccw_T1_28 :
    seen (exec (.sample p11) (st angle32 .ccw3 5)) = some (.start, 4, 0b10#2, [.direction .ccw]) := by decide
theorem test_unbounded_T3_3 :
    seen (exec (.sample p11) (st unb32 .cw3 2147483647)) =
      some (.start, -2147483648, 0b01#2, [.direction .cw]) := by decide
theorem test_unbounded_large_T3_8 :
    seen (exec (.sample p11) (st (cfgOf .unbounded 8 0 0 127 false) .ccw3 (-100))) =
      some (.start, 29, 0b10#2, [.direction .ccw]) := by decide
theorem test_reverse_T3_11 :
    seen (exec (.sample p11) (st (cfgOf .wrap 32 0 359 1 true) .cw3 0)) =
      some (.start, 359, 0b01#2, [.direction .cw]) := by decide
theorem test_wrap_T3_12 :
    seen (exec (.sample p11) (st (cfgOf .wrap 32 (-5) 5 3 false) .cw3 4)) =
      some (.start, -4, 0b01#2, [.direction .cw]) := by decide
theorem test_wrap_T3_15 :
    seen (exec (.sample p11) (st (cfgOf .wrap 32 0 9 25 false) .ccw3 3)) =
      some (.start, 8, 0b10#2, [.direction .ccw]) := by decide
theorem test_bounded_T3_23 :
    seen (exec (.sample p11) (st (cfgOf .bounded 32 0 100 5 false) .ccw3 2)) =
      some (.start, 0, 0b10#2, [.direction .ccw]) := by decide
theorem test_bounded_exact_sum_T3_24 :
    seen (exec (.sample p11) (st bndTop .cw3 2147483647)) =
      some (.start, 2147483647, 0b01#2, [.direction .cw]) := by decide

/-! ### Host events: T4 -/

theorem test_set_wraps_T4_7 :
    seen (exec (.set (-2147483648)) (st angle32 .start 0)) = some (.start, 232, 0b00#2, []) := by decide
theorem test_set_clamps_T4_10 :
    seen (exec (.set 11) (st (cfgOf .bounded 32 0 10 1 false) .start 0)) = some (.start, 10, 0b00#2, []) := by decide
theorem test_reset_leaves_state_T4_24 :
    seen (exec .reset (st bnd8 .cw1 7)) = some (.cw1, 0, 0b00#2, []) := by decide
theorem test_reset_goes_to_min_T4_15 :
    seen (exec .reset (st wrap8 .start 3)) = some (.start, -5, 0b00#2, []) := by decide
theorem test_read : seen (exec .read (st bnd8 .cw2 6)) = some (.cw2, 6, 0b00#2, [.value 6]) := by decide
theorem test_angle_T4_16 :
    seen (exec .angle (st angle32 .start 359)) = some (.start, 359, 0b00#2, [.value 359]) := by decide
theorem test_state_T4_19 :
    seen (exec .state (st unb32 .ccw2 0)) = some (.ccw2, 0, 0b00#2, [.code 0b101#3]) := by decide

/-! ### Clock cycles: T5 -/

theorem test_set_then_sample_T5_1 :
    seen (step { st bnd8 .cw3 0 with inputs := [.ports (portsOf 8 (some 0b11#2) (some (0b100#3, 10)))] }) =
      some (.start, 10, 0b01#2, [.direction .cw]) := by decide
theorem test_read_sees_the_start_of_the_cycle_T5_2 :
    seen (step { st bnd8 .cw3 0 with inputs := [.ports (portsOf 8 (some 0b11#2) (some (0b001#3, 0)))] }) =
      some (.start, 1, 0b01#2, [.direction .cw, .value 0]) := by decide
theorem test_reset_cycle_T5_3 :
    seen (step { st wrap8 .cw3 2 with
      inputs := [.ports { portsOf 8 (some 0b11#2) (some (0b100#3, 4)) with rst := true }] }) =
      some (.start, -5, 0b00#2, []) := by decide
theorem test_cycle_without_sample_clears_dir_out_T5_4 :
    seen (step { st bnd8 .start 4 with dirOut := 0b01#2, inputs := [.ports (portsOf 8 none none)] }) =
      some (.start, 4, 0b00#2, []) := by decide

/-! ### Construction: T6 -/

def given (w : Nat) (policy : BitVec 2) (lo hi : Int) (incr : Nat) (tt : Table) : Supplied where
  w := w
  policy := policy
  min := BitVec.ofInt w lo
  max := BitVec.ofInt w hi
  incr := BitVec.ofNat w incr
  reverse := false
  tt := tt

theorem test_refusals_T6 :
    [given 32 0b01#2 5 4 1 tableRef, given 32 0b10#2 5 4 1 tableRef, given 32 0b00#2 5 4 1 tableRef,
      given 32 0b11#2 0 0 1 tableRef, given 8 0b00#2 0 0 128 tableRef, given 8 0b00#2 0 0 127 tableRef,
      given 1 0b00#2 0 0 0 tableRef, given 1 0b00#2 0 0 1 tableRef, given 32 0b10#2 10 0 (2 ^ 31) tableRef,
      given 32 0b11#2 0 0 (2 ^ 31) tableRef].map checkConfig =
    [some .minGtMax, some .minGtMax, none, some .policyReserved, some .incrRange, none, some .width,
      some .incrRange, some .minGtMax, some .policyReserved] := by decide
theorem test_malformed_tables_T6 :
    [{ tableRef with illegal := { x00 := 0x30#6, x01 := 0#6, x10 := 0#6, x11 := 0#6 } },
      { tableRef with cw2 := { x00 := 0x02#6, x01 := 0x0B#6, x10 := 0x01#6, x11 := 0x00#6 } }].map
      (fun tt => checkConfig (given 32 0b00#2 0 0 1 tt)) = [some .ttMalformed, some .ttMalformed] := by decide

/-! ### Witnesses: states and operands that meet the hypotheses of the obligations -/

theorem witness_DecodeOfEncodeIsTheEvent :
    [Instr.sample p10, .reservedS 3#2, .nop, .read, .angle, .reset, .set 127, .set (-128), .state,
      .reservedH 1#1].all (WellFormed 8) = true := by decide

theorem witness_EncodeOfDecodeIsTheEventWord :
    decode ⟨0b1100#4, some 0xFF#8⟩ = .ok (.set (-1)) ∧ decode (w := 8) ⟨0b0111#4, none⟩ = .ok (.reservedS 3#2) := by
  decide

/-- Lines of three shapes, the SET at the end of its range, and a SET just past it. -/
theorem witness_AssemblerReadsTheEventProgram :
    LineOf 8 ['S', 'E', 'T', ' ', '-', '1', '2', '8'] [.set (-128)] .host ∧
    LineOf 8 ['S', 'A', 'M', 'P', 'L', 'E', ' ', '0', 'b', '1', '0'] [.sample p10] .sampleSource ∧
    LineOf 8 ['N', 'O', 'P'] [.nop] .host ∧ Agent.host ≠ .sampleSource ∧
    WellFormed 8 (.set (intValue false [1, 2, 8])) = false :=
  ⟨.set true [1, 2, 8] (by decide) (by decide), .sampleBinary p10, .nop, by decide, by decide⟩

/-- Lines as 95_test_vectors.md writes them (P1, P5, P6). -/
theorem test_assemble_lines :
    assembleLine 8 ['S', ':', ' ', 'S', 'A', 'M', 'P', 'L', 'E', ' ', '0', '1', ' ', ';', ' ', '0', 'x', '1'] =
      some [.sample p01] ∧
    assembleLine 8 ['S', ':', ' ', 'R', 'E', 'A', 'D'] = none ∧
    (assembleLine 8 ['D', 'E', 'T', 'E', 'N', 'T', '_', 'C', 'W', '*', '1', '2']).map List.length = some 48 := by
  decide

theorem witness_DecodingRejectsExactlyTheMisplacedOperands :
    (∃ i, decode ⟨0b1100#4, some 0x00#8⟩ = .ok i) ∧ decode (w := 8) ⟨0b1100#4, none⟩ = .error .missingOperand ∧
      decode ⟨0b1101#4, some 0x00#8⟩ = .error .strayOperand := ⟨⟨.set 0, by decide⟩, by decide, by decide⟩

/-- The state carries the invalid configuration of T6.1 at W = 8. -/
theorem witness_ConstructionReportsTheFirstFailingCheck :
    CheckFails (given 8 0b01#2 5 4 1 tableRef) .minGtMax ∧
    CheckFails (given 8 0b11#2 0 0 1 tableRef) .policyReserved ∧
    CheckFails (given 1 0b00#2 0 0 0 tableRef) .width ∧
    build (supplied (st (cfgOf .wrap 8 5 4 1 false) .start 5).cfg tableRef) = .error .minGtMax ∧
    (∃ b, build (given 8 0b00#2 0 0 127 tableRef) = .ok b) := by
  refine ⟨?_, ?_, ?_, by rfl, ⟨(cfgOf .unbounded 8 0 0 127 false, tableRef), by rfl⟩⟩
  · show (_ ∨ _) ∧ _
    decide
  · show (given 8 0b11#2 0 0 1 tableRef).policy = _
    decide
  · show (given 1 0b00#2 0 0 0 tableRef).w < 2
    decide

/-- The two remaining checks fail at their boundary: INCR = 128 at W = 8, and bit 3 set in one entry. -/
theorem witness_increment_and_table_checks :
    CheckFails (given 8 0b00#2 0 0 128 tableRef) .incrRange ∧
    CheckFails (given 8 0b00#2 0 0 1 { tableRef with start := { x00 := 0x08#6, x01 := 0#6, x10 := 0#6, x11 := 0#6 } })
      .ttMalformed := by
  refine ⟨?_, .start, p00, .inl (by decide)⟩
  have h : (given 8 0b00#2 0 0 128 tableRef).incr.toNat = 128 := by decide
  have hw : (given 8 0b00#2 0 0 128 tableRef).w = 8 := rfl
  show ((given 8 0b00#2 0 0 128 tableRef).incr.toNat : ℚ) > 2 ^ (((given 8 0b00#2 0 0 128 tableRef).w : ℤ) - 1) - 1
  rw [h, hw]
  norm_num

theorem witness_BuiltBlockHasTheSuppliedParameters :
    build (given 8 0b00#2 0 0 1 tableRef) = .ok (unb8, tableRef) ∧
    build (given 8 0b01#2 (-128) 127 1 tableRef) = .ok (wrapWide, tableRef) ∧
    build (given 8 0b10#2 0 10 1 tableRef) = .ok (bnd8, tableRef) := ⟨by rfl, by rfl, by rfl⟩

theorem witness_ResetStateHoldsTheResetValues :
    ValidConfig unb8 tableRef ∧ unb8.policy = .unbounded ∧ ValidConfig wrap8 tableRef ∧ wrap8.policy ≠ .unbounded ∧
      ValidConfig bnd8 tableRef ∧ bnd8.policy ≠ .unbounded :=
  ⟨valid_unb8, rfl, valid_wrap8, by decide, valid_bnd8, by decide⟩

/-- A cycle with a reset, whatever else it presents. -/
def resetCycle : Ports 8 := { portsOf 8 (some 0b11#2) (some (0b100#3, 4)) with rst := true }

theorem witness_HardwareResetCycleGivesTheResetState :
    ∃ (s : State) (p : Ports s.cfg.w) (rest : List (Input s.cfg.w)),
      ValidConfig s.cfg s.tt ∧ s.inputs = .ports p :: rest ∧ p.rst = true :=
  ⟨{ st wrap8 .cw3 2 with inputs := [.ports resetCycle] }, resetCycle, [], valid_wrap8, rfl, rfl⟩

theorem witness_EventBeforeResetIsRefused :
    ∃ (s : State) (inp : Input s.cfg.w) (rest : List (Input s.cfg.w)),
      ValidConfig s.cfg s.tt ∧ s.launched = false ∧ s.inputs = inp :: rest ∧ inp.hasEvent = true :=
  ⟨{ st wrap8 .cw3 2 with launched := false, inputs := [.event ⟨0b1001#4, none⟩] }, .event ⟨0b1001#4, none⟩, [],
    valid_wrap8, rfl, rfl, rfl⟩

theorem witness_StepRunsTheDecodedEvent :
    ∃ (s : State) (e : EventWord s.cfg.w) (rest : List (Input s.cfg.w)) (i : Instr),
      ValidConfig s.cfg s.tt ∧ s.launched = true ∧ s.inputs = .event e :: rest ∧ decode e = .ok i :=
  ⟨{ st wrap8 .cw3 2 with inputs := [.event ⟨0b1100#4, some 0x64#8⟩] }, ⟨0b1100#4, some 0x64#8⟩, [], .set 100,
    valid_wrap8, rfl, rfl, by decide⟩

/-- A cycle that presents READ and the sample 11. -/
def readCycle : Ports 8 := portsOf 8 (some 0b11#2) (some (0b001#3, 0))

/-- A state in whose next cycle READ and a SAMPLE are presented; the SAMPLE emits CW. -/
def beforeReadCycle : State := { st bnd8 .cw3 0 with inputs := [.ports readCycle] }

theorem witness_CyclePerformsTheHostCommandThenTheSample :
    ∃ (s : State) (p : Ports s.cfg.w) (rest : List (Input s.cfg.w)),
      ValidConfig s.cfg s.tt ∧ s.launched = true ∧ s.inputs = .ports p :: rest ∧ p.rst = false ∧
        p.cmdValid = true ∧ p.smpValid = true :=
  ⟨beforeReadCycle, readCycle, [], valid_bnd8, rfl, rfl, rfl, rfl, rfl⟩

theorem witness_PortsMapToEventCodes :
    (portsOf 8 (some 0b11#2) (some (0b100#3, 4))).sampleWord = some ⟨0b0011#4, none⟩ ∧
    (portsOf 8 (some 0b11#2) (some (0b100#3, 4))).hostWord = some ⟨0b1100#4, some 4#8⟩ ∧
    (st bnd8 .cw3 0).launched = true ∧ (portsOf 8 none (some (0b000#3, 0))).cmdValid = true ∧
    (portsOf 8 none (some (0b000#3, 0))).cmd = 0b000#3 := by decide

/-- The three shapes of a step: nothing presented, an event word, and port values. -/
theorem witness_DirOutIsAPulseOfOneCycle :
    seen (step { st bnd8 .cw3 0 with dirOut := 0b01#2 }) = some (.cw3, 0, 0b00#2, []) ∧
    seen (step { st bnd8 .cw3 0 with inputs := [.event ⟨0b0011#4, none⟩] }) =
      some (.start, 1, 0b01#2, [.direction .cw]) ∧
    seen (step beforeReadCycle) = some (.start, 1, 0b01#2, [.direction .cw, .value 0]) :=
  ⟨by decide, by decide, by decide⟩

theorem witness_ClockedRunIsAnEventRun :
    ∃ (s : State) (ps : List (Ports s.cfg.w)), ValidConfig s.cfg s.tt ∧ s.launched = true ∧
      (∀ p ∈ ps, p.rst = false) ∧ ps.length = 2 :=
  ⟨st bnd8 .cw3 0, [readCycle, portsOf 8 none (some (0b011#3, 0))], valid_bnd8, rfl, by decide, rfl⟩

theorem witness_StepKeepsConfigurationAndTable : ∃ t, step beforeReadCycle = .next t := ⟨_, rfl⟩

theorem witness_StepRefusesOnlyWhatTheSpecRefuses :
    step (st (cfgOf .wrap 8 5 4 1 false) .start 5) = .refused (.config .minGtMax) ∧
    step { beforeReadCycle with launched := false } = .refused .beforeReset ∧
    step { st bnd8 .cw3 0 with inputs := [.event ⟨0b1100#4, none⟩] } =
      .refused (.malformedEvent .missingOperand) := ⟨rfl, rfl, rfl⟩

theorem witness_EveryEventCompletesInOneStep : State.Ready beforeReadCycle ∧ State.Ready (st bnd8 .start 0) :=
  ⟨⟨valid_bnd8, rfl, by decide⟩, ⟨valid_bnd8, rfl, by decide⟩⟩

theorem witness_StepKeepsTheInvariant : State.Inv beforeReadCycle ∧ ∃ t, step beforeReadCycle = .next t :=
  ⟨⟨valid_bnd8, rfl, fun _ => by decide, by decide, fun _ => by decide⟩, ⟨_, rfl⟩⟩

theorem witness_ResetStateHasTheInvariant : ValidConfig wrapOne tableRef := valid_wrapOne

/-- Events that write no register, a SET at the end of its range, and a SAMPLE with each of the two outcomes. -/
theorem witness_ReadsReturnWhatTheLastWriteLeft :
    ValidConfig wrap8 tableRef ∧ noValueWrite [.sample p10, .read, .state] (st wrap8 .start 3) = true ∧
      WellFormed wrap8.w (.set (-128)) = true ∧ (ttRead tableRef .cw3 p11).getLsbD 4 = true ∧
      (ttRead tableRef .ccw3 p11).getLsbD 5 = true ∧ ReadsAs (st wrap8 .cw3 3) 3 ∧
      noStateWrite [.reset, .set 4, .nop] = true ∧
      noValueWrite [.sample p10, .sample p00] (State.resetOf wrap8 tableRef) = true :=
  ⟨valid_wrap8, by decide, by decide, by decide, by decide, ⟨rfl, rfl⟩, by decide, by decide⟩

/-- SET, and a SAMPLE with an outcome, write VALUE; a SAMPLE writes STATE. -/
theorem test_events_that_write :
    noValueWrite [.nop, .set 4] (st wrap8 .start 3) = false ∧ noValueWrite [.sample p11] (st wrap8 .cw3 3) = false ∧
      noStateWrite [.nop, .sample p11] = false := by decide

/-- Two states that differ in configuration and VALUE. -/
theorem witness_OutcomesDependOnTheSamplesAlone :
    (st wrap8 .cw2 1).tt = (st bnd8 .cw2 10).tt ∧ (st wrap8 .cw2 1).automaton = (st bnd8 .cw2 10).automaton :=
  ⟨rfl, rfl⟩

/-- Each outcome occurs. -/
theorem witness_SampleStepsTheDecoderAndAppliesTheOutcome :
    ValidConfig wrap8 tableRef ∧ outcome (ttRead tableRef .cw3 p11) = .cw ∧
      outcome (ttRead tableRef .ccw3 p11) = .ccw ∧ outcome (ttRead tableRef .cw2 p11) = .none :=
  ⟨valid_wrap8, by decide, by decide, by decide⟩

theorem witness_SampleFollowsTheReferenceTable :
    referenceGrid.length = 32 ∧ (Automaton.cw3, p11, Automaton.start, Direction.cw) ∈ referenceGrid ∧
      (st bnd8 .cw3 10).tt = tableRef ∧ (st bnd8 .cw3 10).automaton = .cw3 := by decide

theorem witness_TableReadIsTheRomEntry :
    isSampleEvent (.set 4) = false ∧ ∃ u, exec (.set 4) (st bnd8 .cw3 0) = .next u := ⟨rfl, _, rfl⟩

theorem witness_OutcomeIsTheDirectionBitThatIsSet : ValidConfig bnd8 tableRef := valid_bnd8

theorem witness_IllegalHealsOnTheNextSample :
    (st bnd8 .illegal 3).tt = tableRef ∧ (st bnd8 .illegal 3).automaton = .illegal := ⟨rfl, rfl⟩

/-- A state at rest under TT_REF. -/
theorem witness_CanonicalDetentsEmitOnce :
    (st bnd8 .start 3).tt = tableRef ∧ (st bnd8 .start 3).automaton = .start := ⟨rfl, rfl⟩

theorem witness_SampleElevenResynchronizes : (st bnd8 .illegal 3).tt = tableRef := rfl

theorem witness_IllegalIsUnreachableUnderTheReferenceTable :
    (st bnd8 .cw1 3).tt = tableRef ∧ (st bnd8 .cw1 3).automaton ≠ .illegal := by decide

/-- One exceptional transition and one that is not. -/
theorem witness_RepeatedSampleLeavesStateAndReturnsNoneButInFourCases :
    (st bnd8 .cw3 3).tt = tableRef ∧ (st bnd8 .cw3 3).automaton ≠ .illegal ∧
      ((st bnd8 .cw3 3).automaton, p10, Automaton.cw1) ∈ repeatExceptions ∧
      ∀ a, ((st bnd8 .cw3 3).automaton, p11, a) ∉ repeatExceptions := by
  refine ⟨rfl, by decide, by decide, ?_⟩
  intro a
  cases a <;> decide

theorem witness_PerturbedDetentEmitsOnceOrNothing :
    (st bnd8 .start 3).tt = tableRef ∧ (st bnd8 .start 3).automaton = .start := ⟨rfl, rfl⟩

/-- The bounced detents of T2.5, T2.6 and T2.7, and the aborted one of E3. -/
theorem test_bounced_detents :
    bounceAt 2 cwSamples = [p10, p00, p10, p00, p01, p11] ∧ bounceAt 3 cwSamples = [p10, p00, p01, p00, p01, p11] ∧
      bounceAt 2 ccwSamples = [p01, p00, p01, p00, p10, p11] ∧ turnBackAt 2 cwSamples = [p10, p00, p10, p11] := by
  decide

/-- A bounced detent: changes of one bit, a repeat among them. -/
theorem witness_CountLawForOneBitSequences :
    (st bnd8 .start 3).tt = tableRef ∧ (st bnd8 .start 3).automaton = .start ∧
      follows p11 [p10, p10, p00, p10, p00, p01, p11] = true ∧
      pinsAfter p11 [p10, p10, p00, p10, p00, p01, p11] = p11 ∧ follows p11 [p01, p00] = true := by decide

/-- Pins at 00 at reset, and the clockwise motion 01, 11 (the example of R108). -/
theorem witness_OffRestResetErrsByLessThanOneDetent :
    (st bnd8 .start 3).tt = tableRef ∧ (st bnd8 .start 3).automaton = .start ∧ p11 ∉ [p01] ∧
      follows p00 ([p01] ++ [p11]) = true := by decide

/-- Inside the range at its two ends and outside it on both sides. -/
theorem witness_UnboundedNormalizationWrapsAtTheWidth :
    ValidConfig unb8 tableRef ∧ unb8.policy = .unbounded ∧
      [127, -128, 128, -129].map (rangeNorm unb8) = [127, -128, -128, 127] := ⟨valid_unb8, rfl, by decide⟩

theorem witness_WrapNormalizationIsTheRemainderInTheRange :
    ValidConfig wrap8 tableRef ∧ wrap8.policy = .wrap ∧ ValidConfig wrapWide tableRef ∧ wrapWide.policy = .wrap ∧
      [5, -5, 6, -6].map (rangeNorm wrap8) = [5, -5, -5, 5] :=
  ⟨valid_wrap8, rfl, valid_wrapWide, rfl, by decide⟩

theorem witness_BoundedNormalizationClamps :
    ValidConfig bnd8 tableRef ∧ bnd8.policy = .bounded ∧
      [0, 10, 11, -1].map (rangeNorm bnd8) = [0, 10, 10, 0] := ⟨valid_bnd8, rfl, by decide⟩

theorem inRange_bnd8_10 : State.InRange (st bnd8 .start 10) := fun _ => by decide

/-- VALUE in range at the upper bound; under wrap8 a VALUE out of range. -/
theorem witness_WritesLeaveValueInRange :
    ValidConfig bnd8 tableRef ∧ State.InRange (st bnd8 .start 10) ∧ ¬ State.InRange (st wrap8 .start 6) := by
  refine ⟨valid_bnd8, inRange_bnd8_10, fun h => ?_⟩
  have := h (by decide)
  revert this
  decide

/-- A range of one value, so that one clockwise detent is a full turn. -/
theorem witness_WrapNormalizationComposes :
    ValidConfig wrapOne tableRef ∧ wrapOne.policy = .wrap ∧ State.InRange (st wrapOne .start 7) ∧
      wrapOne.incr.toNat = 1 ∧ wrapOne.reverse = false ∧
      (∃ t, execAll (samples cwSamples) (st wrapOne .start 7) = .next t ∧
        emitted (outcomesOf t.results) = List.replicate (rangeSize wrapOne).toNat .cw) :=
  ⟨valid_wrapOne, rfl, fun _ => by decide, by decide, rfl, _, rfl, by decide⟩

theorem witness_FullTurnOfDetentsReturnsTheValue :
    ValidConfig angle32 tableRef ∧ angle32.policy = .wrap ∧ (st angle32 .start 17).tt = tableRef ∧
      (st angle32 .start 17).automaton = .start ∧ State.InRange (st angle32 .start 17) ∧ angle32.incr.toNat = 1 :=
  ⟨valid_angle32, rfl, rfl, rfl, fun _ => by decide, by decide⟩

theorem witness_DiscardedIncrementsAreLost :
    ValidConfig bnd8 tableRef ∧ bnd8.policy = .bounded ∧ bnd8.reverse = false ∧
      (st bnd8 .start 10).automaton = .start ∧ (st bnd8 .start 10).value = bnd8.max :=
  ⟨valid_bnd8, rfl, rfl, rfl, rfl⟩

theorem witness_UnboundedOverflowWrapsAround :
    ValidConfig unb8 tableRef ∧ unb8.policy = .unbounded ∧ unb8.incr.toNat = 1 ∧ unb8.reverse = false ∧
      (st unb8 .cw3 127).value.toInt = (2 : Int) ^ (unb8.w - 1) - 1 ∧ outcome (ttRead tableRef .cw3 p11) = .cw ∧
      (st unb8 .ccw3 (-128)).value.toInt = -(2 : Int) ^ (unb8.w - 1) ∧
      outcome (ttRead tableRef .ccw3 p11) = .ccw :=
  ⟨valid_unb8, rfl, by decide, rfl, by decide, by decide, by decide, by decide⟩

/-- The state of R86's example, and one at MIN. -/
theorem witness_SumIsExactBeforeItIsClamped :
    ValidConfig bndTop tableRef ∧ bndTop.policy = .bounded ∧ bndTop.reverse = false ∧
      State.InRange (st bndTop .cw3 2147483647) ∧
      bndTop.max.toInt ≤ (st bndTop .cw3 2147483647).value.toInt + bndTop.incr.toNat ∧
      State.InRange (st bndTop .ccw3 0) ∧
      (st bndTop .ccw3 0).value.toInt - bndTop.incr.toNat ≤ bndTop.min.toInt :=
  ⟨valid_bndTop, rfl, rfl, fun _ => by decide, by decide, fun _ => by decide, by decide⟩

theorem witness_ZeroIncrementLeavesValue :
    ValidConfig bndZero tableRef ∧ State.InRange (st bndZero .cw3 50) ∧ bndZero.incr.toNat = 0 :=
  ⟨valid_bndZero, fun _ => by decide, by decide⟩

theorem witness_OneValueRangeHoldsMin :
    ValidConfig wrapOne tableRef ∧ wrapOne.policy ≠ .unbounded ∧ wrapOne.min = wrapOne.max ∧
      (st wrapOne .cw3 7).value = wrapOne.min := ⟨valid_wrapOne, by decide, rfl, rfl⟩

/-- The second clause takes the configuration of R93's example. -/
theorem witness_WidestWrapIsUnboundedButForReset :
    ValidConfig wrapWide tableRef ∧ wrapWide.policy = .wrap ∧
      wrapWide.min.toInt = -(2 : Int) ^ (wrapWide.w - 1) ∧ wrapWide.max.toInt = (2 : Int) ^ (wrapWide.w - 1) - 1 ∧
      Instr.read ≠ .reset ∧ (∃ t, exec .read (st wrapWide .start 127) = .next t) ∧
      ValidConfig (cfgOf .wrap 32 0 9 25 false) tableRef :=
  ⟨valid_wrapWide, rfl, by decide, by decide, by decide, ⟨_, rfl⟩, by unfold ValidConfig; decide⟩

/-- The operand at the two ends of signed 8 bits, and a cycle that presents READ. -/
theorem witness_ReadReturnsTheValue :
    ValidConfig unb8 tableRef ∧ unb8.policy = .unbounded ∧ WellFormed unb8.w (.set 127) = true ∧
      WellFormed unb8.w (.set (-128)) = true ∧ ValidConfig bnd8 tableRef ∧ beforeReadCycle.launched = true ∧
      readCycle.rst = false ∧ readCycle.cmdValid = true ∧ readCycle.cmd = 0b001#3 :=
  ⟨valid_unb8, rfl, by decide, by decide, valid_bnd8, rfl, rfl, rfl, rfl⟩

theorem witness_AngleReturnsTheValue :
    ValidConfig angle32 tableRef ∧ angle32.policy = .wrap ∧ angle32.min.toInt = 0 ∧ angle32.max.toInt = 359 ∧
      State.InRange (st angle32 .start 359) ∧ (portsOf 32 none (some (0b010#3, 0))).cmd = 0b010#3 :=
  ⟨valid_angle32, rfl, by decide, by decide, fun _ => by decide, rfl⟩

theorem witness_StateReturnsTheCode :
    (∃ t, exec .state (st bnd8 .cw1 3) = .next t) ∧ (∃ u, exec (.sample p11) (st bnd8 .cw1 3) = .next u) ∧
      (portsOf 8 none (some (0b101#3, 0))).cmd = 0b101#3 := ⟨⟨_, rfl⟩, ⟨_, rfl⟩, rfl⟩

theorem witness_ResetWritesTheResetValueAlone :
    ValidConfig wrap8 tableRef ∧ (st wrap8 .cw3 2).tt = tableRef ∧ (st wrap8 .cw3 2).automaton = .cw3 :=
  ⟨valid_wrap8, rfl, rfl⟩

theorem witness_SetWritesTheNormalizedOperand :
    ValidConfig wrap8 tableRef ∧ WellFormed wrap8.w (.set 127) = true ∧ WellFormed wrap8.w (.set (-128)) = true ∧
      ValidConfig unb8 tableRef ∧ unb8.policy = .unbounded :=
  ⟨valid_wrap8, by decide, by decide, valid_unb8, rfl⟩

theorem witness_NopAndReservedCodesDoNothing :
    (⟨0b0011#4, none⟩ : EventWord 8) ∈ (portsOf 8 (some 0b11#2) none).sampleWord := by decide

theorem witness_ReadsAndHostWritesAreRepeatable :
    State.Inv (st bnd8 .cw1 3) ∧ (∃ t, exec (.sample p01) (st bnd8 .cw1 3) = .next t) :=
  ⟨⟨valid_bnd8, rfl, fun _ => by decide, by decide, fun _ => by decide⟩, ⟨_, rfl⟩⟩

end Sys2Proof.Tests
end

/-! Proofs of the state family: the codes of STATE (R17), what hardware reset leaves (R31), and the parameters that
no step writes (R27, R28). -/

namespace Sys2Proof.Machine

open Sys2Proof

/-! ### The parameters -/

/-- CFG and TT are those of another state (R27, R28). -/
def State.SameParameters (t s : State) : Prop := t.cfg = s.cfg ∧ t.tt = s.tt

theorem State.SameParameters.trans {u t s : State} (hu : u.SameParameters t) (ht : t.SameParameters s) :
    u.SameParameters s := ⟨hu.1.trans ht.1, hu.2.trans ht.2⟩

theorem writeDirOut_sameParameters (s : State) (o : Direction) : (s.writeDirOut o).SameParameters s := ⟨rfl, rfl⟩

theorem dropInput_sameParameters (s : State) : s.dropInput.SameParameters s := ⟨rfl, rfl⟩

theorem hardwareReset_sameParameters (s : State) : s.hardwareReset.SameParameters s := ⟨rfl, rfl⟩

theorem endCycle_sameParameters (s : State) (sampled : Bool) : (s.endCycle sampled).SameParameters s := by
  cases sampled
  · exact writeDirOut_sameParameters s .none
  · exact ⟨rfl, rfl⟩

theorem exec_sameParameters {i : Instr} {s t : State} (h : exec i s = .next t) : t.SameParameters s := by
  obtain ⟨hcfg, htt, -⟩ := exec_next_cfg h
  exact ⟨hcfg, htt⟩

theorem performPort_sameParameters {w : Nat} {e : Option (EventWord w)} {s t : State}
    (h : performPort e s = .next t) : t.SameParameters s := by
  obtain ⟨a, v, d, new, rfl⟩ := performPort_next h
  exact ⟨rfl, rfl⟩

/-- Each kind of cycle, idle, event word, `rst` and ports, keeps CFG and TT. -/
theorem step_sameParameters {s t : State} (h : step s = .next t) : t.SameParameters s := by
  obtain ⟨-, ⟨-, rfl⟩ | ⟨e, rest, i, u, -, -, -, hexec, rfl⟩ | ⟨p, rest, -, -, rfl⟩ |
    ⟨p, rest, u, v, -, -, -, hhost, hsample, rfl⟩⟩ := step_next_cases h
  · exact writeDirOut_sameParameters s .none
  · exact (endCycle_sameParameters u _).trans ((exec_sameParameters hexec).trans (dropInput_sameParameters s))
  · exact (hardwareReset_sameParameters _).trans (dropInput_sameParameters s)
  · have hports : v.SameParameters s.dropInput :=
      (performPort_sameParameters hsample).trans (performPort_sameParameters hhost)
    exact (endCycle_sameParameters v _).trans (hports.trans (dropInput_sameParameters s))

/-- Settles O18, by the cases of what a step can do. -/
theorem stepKeepsConfigurationAndTable : Obligations.StepKeepsConfigurationAndTable :=
  fun _ _ h => step_sameParameters h

/-! ### The codes of STATE -/

@[simp] theorem ofCode_code (a : Automaton) : Automaton.ofCode a.code = a := by
  cases a <;> rfl

/-- R17: no code is left without a state, checked over the 8 codes. -/
@[simp] theorem code_ofCode (c : StateCode) : (Automaton.ofCode c).code = c := by
  revert c
  decide

/-- Settles O5: the table of R17 is read off `Automaton.code`, and `Automaton.ofCode` is its inverse. -/
theorem eightStatesHaveTheEightCodes : Obligations.EightStatesHaveTheEightCodes :=
  ⟨by decide, ofCode_code, code_ofCode⟩

/-! ### The reset values -/

theorem resetOf_value_of_unbounded {c : Cfg} (tt : Table) (hp : c.policy = .unbounded) :
    (State.resetOf c tt).value.toInt = 0 := by
  rw [resetOf_value_toInt, toInt_resetValue, if_pos hp]

theorem resetOf_value_of_ne_unbounded {c : Cfg} (tt : Table) (hp : c.policy ≠ .unbounded) :
    (State.resetOf c tt).value.toInt = c.min.toInt := by
  rw [resetOf_value_toInt, toInt_resetValue, if_neg hp]

/-- R0 satisfies R19: under Wrap and Bounded it is MIN, and a valid configuration has `MIN <= MAX`. -/
theorem resetOf_inRange {c : Cfg} {tt : Table} (h : ValidConfig c tt) : (State.resetOf c tt).InRange := by
  intro (hp : c.policy ≠ .unbounded)
  rw [resetOf_value_of_ne_unbounded tt hp]
  exact ⟨le_rfl, h.bounds hp⟩

/-- Settles O10, row by row of R31's table. -/
theorem resetStateHoldsTheResetValues : Obligations.ResetStateHoldsTheResetValues := by
  intro c tt h
  have hcode : (State.resetOf c tt).automaton.code = 0b000#3 := rfl
  have hdir : (State.resetOf c tt).dirOut = 0b00#2 := rfl
  exact ⟨hcode, hdir, resetOf_cfg c tt, resetOf_tt c tt, resetOf_value_of_unbounded tt,
    resetOf_value_of_ne_unbounded tt, resetOf_inRange h⟩

end Sys2Proof.Machine

/-! Proofs of the memory family: the transition-table ROM and its only reader (R34), and which events may be repeated
(R40). -/

namespace Sys2Proof.Machine

open Sys2Proof

/-! ### The transition-table ROM -/

theorem tableImage_length (tt : Table) : (tableImage tt).length = 32 := rfl

/-- The row of the state with code `c` is the four entries of the ROM from index `4*c` on (R34). -/
theorem take_drop_tableImage (tt : Table) (a : Automaton) :
    ((tableImage tt).drop (4 * a.code.toNat)).take 4 = rowEntries (tableRow tt a) := by
  cases a <;> rfl

/-- A row holds its entries in the order of the 2-bit samples (R28, R49). -/
theorem rowEntries_getElem?_bits (r : Row) (x : PinSample) :
    (rowEntries r)[x.bits.toNat]? = some (rowRead r x) := by
  obtain ⟨clk, dt⟩ := x
  cases clk <;> cases dt <;> rfl

theorem tableImage_getElem? (tt : Table) (a : Automaton) (x : PinSample) :
    (tableImage tt)[4 * a.code.toNat + x.bits.toNat]? = some (ttRead tt a x) := by
  have hx : x.bits.toNat < 4 := x.bits.isLt
  calc (tableImage tt)[4 * a.code.toNat + x.bits.toNat]?
      = (((tableImage tt).drop (4 * a.code.toNat)).take 4)[x.bits.toNat]? := by
        rw [List.getElem?_take_of_lt hx, List.getElem?_drop]
    _ = (rowEntries (tableRow tt a))[x.bits.toNat]? := by rw [take_drop_tableImage]
    _ = some (ttRead tt a x) := rowEntries_getElem?_bits _ x

/-- An event that is no SAMPLE does the same under any other table (R34). -/
theorem exec_with_table {i : Instr} {s u : State} (tt : Table) (hi : isSampleEvent i = false)
    (h : exec i s = .next u) : exec i { s with tt := tt } = .next { u with tt := tt } := by
  cases i with
  | sample x => cases hi
  | _ => cases h; rfl

/-- Settles O28: the index `4*s + x` picks the row of `s`, then the entry of `x` in it. -/
theorem tableReadIsTheRomEntry : Obligations.TableReadIsTheRomEntry :=
  ⟨tableImage_length, tableImage_getElem?, fun _ _ _ tt hi h => exec_with_table tt hi h⟩

/-! ### Repeated events -/

/-- An event performed twice in a row, where the answers of the two are known. -/
theorem execAll_twice {i : Instr} {s t u : State} (hs : exec i s = .next t) (ht : exec i t = .next u) :
    execAll [i, i] s = .next u := by
  rw [execAll_of_next hs, execAll_of_next ht, execAll_nil]

/-- What a read returns does not depend on what was returned before (R40). -/
theorem exec_hostRead {i : Instr} (hi : i ∈ [Instr.read, .angle, .state]) (s : State) :
    ∃ r, exec i s = .next (s.returns r) ∧ ∀ q, exec i (s.returns q) = .next ((s.returns q).returns r) := by
  obtain rfl | rfl | rfl : i = .read ∨ i = .angle ∨ i = .state := by simpa using hi
  · exact ⟨_, exec_read s, fun q => exec_read (s.returns q)⟩
  · exact ⟨_, exec_angle s, fun q => exec_angle (s.returns q)⟩
  · exact ⟨_, exec_state s, fun q => exec_state (s.returns q)⟩

/-- A second RESET writes the R0 that the first one wrote. -/
theorem execAll_reset_twice (s : State) : execAll [.reset, .reset] s = exec .reset s :=
  execAll_twice (exec_reset s) (exec_reset _)

/-- A second SET writes the value that the first one wrote: it depends on the operand and CFG alone. -/
theorem execAll_set_twice (s : State) (v : Int) : execAll [.set v, .set v] s = exec (.set v) s :=
  execAll_twice (exec_set v s) (exec_set v _)

/-- A block just reset is within the invariant with any legal automaton state in the place of START. -/
theorem resetOf_writeAutomaton_inv {c : Cfg} {tt : Table} (h : ValidConfig c tt) {a : Automaton}
    (ha : a ≠ .illegal) : ((State.resetOf c tt).writeAutomaton a).Inv where
  valid := h
  launched := rfl
  inRange := resetOf_inRange h
  dirOut := (by decide : dirBits .none ≠ 0b11#2)
  legal _ := ha

theorem validConfig_default : ValidConfig defaultCfg tableRef := by
  unfold ValidConfig
  decide

/-- Under TT_REF the sample 01 takes CW_1 to START and START to CCW_1, so performing it twice differs from once
(R40, R69). -/
theorem exists_sample_not_repeatable : ∃ (s t u : State) (x : PinSample),
    s.Inv ∧ exec (.sample x) s = .next t ∧ exec (.sample x) t = .next u ∧ u.automaton ≠ t.automaton := by
  have hinv : (State.reset.writeAutomaton .cw1).Inv :=
    resetOf_writeAutomaton_inv validConfig_default (by decide)
  exact ⟨State.reset.writeAutomaton .cw1, _, _, ⟨false, true⟩, hinv, exec_sample _ _, exec_sample _ _, by decide⟩

/-- Settles O56: reads by what they return, RESET and SET by what they write, SAMPLE by a counterexample. -/
theorem readsAndHostWritesAreRepeatable : Obligations.ReadsAndHostWritesAreRepeatable := by
  refine ⟨fun i hi s => ?_, execAll_reset_twice, execAll_set_twice, exists_sample_not_repeatable⟩
  obtain ⟨r, hs, hagain⟩ := exec_hostRead hi s
  exact ⟨r, hs, execAll_twice hs (hagain r)⟩

end Sys2Proof.Machine

/-! Proofs of the encoding family: what each of the 16 event codes decodes to (R51), the events that the ports present
(R53), and the codes without effect (R52, R83). -/

namespace Sys2Proof.Machine

open Sys2Proof

/-! ### The rows of the opcode table -/

/-- A word without operand is the event of its code. -/
theorem decode_of_decodeCode {w : Nat} {c : EventCode} {i : Instr} (h : decodeCode c = some i) :
    decode (w := w) ⟨c, none⟩ = .ok i := by
  unfold decode
  rw [h]

theorem decodeCode_sample (x : BitVec 2) :
    decodeCode (0b00#2 ++ x) = some (.sample ⟨x.getLsbD 1, x.getLsbD 0⟩) := by
  revert x
  decide

theorem decodeCode_reservedS (x : BitVec 2) : decodeCode (0b01#2 ++ x) = some (.reservedS x) := by
  revert x
  decide

theorem decodeCode_reservedH (x : BitVec 1) : decodeCode (0b111#3 ++ x) = some (.reservedH x) := by
  revert x
  decide

/-- The code of SET is the only one that needs an operand (R48). -/
theorem decodeCode_eq_none (c : EventCode) : decodeCode c = none ↔ c = 0b1100#4 := by
  rw [← Option.map_eq_none_iff, isSampleEvent_decodeCode, ite_eq_left_iff]
  simp [setCode]

section
variable {w : Nat}

theorem decode_sample (x : BitVec 2) :
    decode (w := w) ⟨0b00#2 ++ x, none⟩ = .ok (.sample ⟨x.getLsbD 1, x.getLsbD 0⟩) :=
  decode_of_decodeCode (decodeCode_sample x)

theorem decode_reservedS (x : BitVec 2) : decode (w := w) ⟨0b01#2 ++ x, none⟩ = .ok (.reservedS x) :=
  decode_of_decodeCode (decodeCode_reservedS x)

theorem decode_nop : decode (w := w) ⟨0b1000#4, none⟩ = .ok .nop := decode_of_decodeCode (by decide)
theorem decode_read : decode (w := w) ⟨0b1001#4, none⟩ = .ok .read := decode_of_decodeCode (by decide)
theorem decode_angle : decode (w := w) ⟨0b1010#4, none⟩ = .ok .angle := decode_of_decodeCode (by decide)
theorem decode_reset : decode (w := w) ⟨0b1011#4, none⟩ = .ok .reset := decode_of_decodeCode (by decide)
theorem decode_state : decode (w := w) ⟨0b1101#4, none⟩ = .ok .state := decode_of_decodeCode (by decide)

theorem decode_set (v : Word w) : decode ⟨0b1100#4, some v⟩ = .ok (.set v.toInt) := by
  unfold decode
  rw [(decodeCode_eq_none _).2 rfl]

theorem decode_reservedH (x : BitVec 1) : decode (w := w) ⟨0b111#3 ++ x, none⟩ = .ok (.reservedH x) :=
  decode_of_decodeCode (decodeCode_reservedH x)

end

/-- Settles O1, row by row of R51's table. -/
theorem sixteenEventCodesDecodeAsTheTableSays : Obligations.SixteenEventCodesDecodeAsTheTableSays :=
  fun _ => ⟨decode_sample, decode_reservedS, decode_nop, decode_read, decode_angle, decode_reset, decode_set,
    decode_state, decode_reservedH⟩

/-! ### The ports -/

section
variable {w : Nat} {p : Ports w} {e : EventWord w}

theorem mem_sampleWord : e ∈ p.sampleWord ↔ p.smpValid = true ∧ e = ⟨0b00#2 ++ p.smp, none⟩ := by
  rw [Ports.sampleWord, Option.mem_ite_none_right, Option.mem_some_iff, @eq_comm _ e]

theorem mem_hostWord : e ∈ p.hostWord ↔ p.cmdValid = true ∧
    e = ⟨0b1#1 ++ p.cmd, if p.cmd = 0b100#3 then some p.wdata else none⟩ := by
  rw [Ports.hostWord, Option.mem_ite_none_right, Option.mem_some_iff, @eq_comm _ e]

end

theorem bitVec3_cases (c : BitVec 3) : c = 0b000#3 ∨ c = 0b001#3 ∨ c = 0b010#3 ∨ c = 0b011#3 ∨ c = 0b100#3 ∨
    c = 0b101#3 ∨ c = 0b110#3 ∨ c = 0b111#3 := by
  revert c
  decide

/-- Each command of the host port is a row of format H in R51's table. -/
theorem decode_hostCommand {w : Nat} (cmd : BitVec 3) (v : Word w) :
    decode ⟨0b1#1 ++ cmd, if cmd = 0b100#3 then some v else none⟩ = .ok (portCommand cmd v) := by
  obtain rfl | rfl | rfl | rfl | rfl | rfl | rfl | rfl := bitVec3_cases cmd
  · exact decode_nop
  · exact decode_read
  · exact decode_angle
  · exact decode_reset
  · exact decode_set v
  · exact decode_state
  · exact decode_reservedH 0#1
  · exact decode_reservedH 1#1

theorem agent_sampleCode {w : Nat} (x : BitVec 2) (v : Option (Word w)) :
    EventWord.agent ⟨0b00#2 ++ x, v⟩ = .sampleSource := by
  have hbit : (0b00#2 ++ x).getLsbD 3 = false := by
    revert x
    decide
  rw [EventWord.agent, hbit]
  rfl

theorem agent_hostCode {w : Nat} (cmd : BitVec 3) (v : Option (Word w)) :
    EventWord.agent ⟨0b1#1 ++ cmd, v⟩ = .host := by
  have hbit : (0b1#1 ++ cmd).getLsbD 3 = true := by
    revert cmd
    decide
  rw [EventWord.agent, hbit]
  rfl

/-! ### A host NOP -/

/-- Without a valid command the host port leaves the state as it is. -/
theorem performPort_hostWord_of_not_valid {w : Nat} {p : Ports w} (hv : p.cmdValid = false) (s : State) :
    performPort p.hostWord s = .next s := by
  simp [Ports.hostWord, hv, performPort]

theorem performPort_hostWord_of_nop {w : Nat} {p : Ports w} (hv : p.cmdValid = true) (hc : p.cmd = 0b000#3)
    (s : State) : performPort p.hostWord s = .next s := by
  have hword : p.hostWord = some ⟨0b1000#4, none⟩ := by simp [Ports.hostWord, hv, hc]
  rw [hword, performPort, performWord, decode_nop]
  exact exec_nop s

theorem clockCycle_of_hostNop {w : Nat} {p : Ports w} (hv : p.cmdValid = true) (hc : p.cmd = 0b000#3) (s : State) :
    clockCycle p s = clockCycle { p with cmdValid := false } s := by
  unfold clockCycle
  rw [performPort_hostWord_of_nop hv hc, performPort_hostWord_of_not_valid rfl]
  rfl

/-- A launched block performs the cycle of its ports (R32, R47). -/
theorem runInput_ports_of_launched {w : Nat} (p : Ports w) {s : State} (hl : s.launched = true) :
    runInput (.ports p) s = clockCycle p s := by
  simp [runInput, hl]

/-- A step looks at its next input only by performing it. -/
theorem step_congr_input (s : State) {inp inp' : Input s.cfg.w} (rest : List (Input s.cfg.w))
    (h : ∀ t : State, t.launched = s.launched → runInput inp t = runInput inp' t) :
    step { s with inputs := inp :: rest } = step { s with inputs := inp' :: rest } := by
  unfold step
  cases checkBuilt s.cfg s.tt with
  | some r => rfl
  | none => exact h { s with inputs := rest } rfl

/-- R53: a host NOP leaves what a cycle with no host event leaves. -/
theorem step_of_hostNop {s : State} {p : Ports s.cfg.w} (rest : List (Input s.cfg.w)) (hl : s.launched = true)
    (hv : p.cmdValid = true) (hc : p.cmd = 0b000#3) :
    step { s with inputs := .ports p :: rest } =
      step { s with inputs := .ports { p with cmdValid := false } :: rest } := by
  refine step_congr_input s rest fun t ht => ?_
  have htl : t.launched = true := ht.trans hl
  calc runInput (.ports p) t
      = clockCycle p t := runInput_ports_of_launched p htl
    _ = clockCycle { p with cmdValid := false } t := clockCycle_of_hostNop hv hc t
    _ = runInput (.ports { p with cmdValid := false }) t := (runInput_ports_of_launched _ htl).symm

/-- Settles O15: the words of the two ports by definition, their decoding by the rows of R51's table. -/
theorem portsMapToEventCodes : Obligations.PortsMapToEventCodes := by
  refine ⟨fun w p => ⟨rfl, rfl, fun e he => ?_, fun e he => ?_⟩, decodeCode_eq_none,
    fun _ _ rest hl hv hc => step_of_hostNop rest hl hv hc⟩
  · obtain ⟨-, rfl⟩ := mem_sampleWord.1 he
    exact ⟨decode_sample p.smp, agent_sampleCode p.smp none⟩
  · obtain ⟨-, rfl⟩ := mem_hostWord.1 he
    exact ⟨decode_hostCommand p.cmd p.wdata, agent_hostCode p.cmd _⟩

/-! ### The codes without effect -/

theorem sampleCode_high (x : BitVec 2) : (0b00#2 ++ x).extractLsb' 2 2 = 0b00#2 := by
  revert x
  decide

theorem sampleWord_not_reserved {w : Nat} {p : Ports w} {e : EventWord w} (he : e ∈ p.sampleWord) :
    e.code.extractLsb' 2 2 ≠ 0b01#2 := by
  obtain ⟨-, rfl⟩ := mem_sampleWord.1 he
  rw [sampleCode_high]
  decide

/-- Settles O55: the three meanings answer the state they were given, and every word of the sample port has
`EV[3:2] = 00`. -/
theorem nopAndReservedCodesDoNothing : Obligations.NopAndReservedCodesDoNothing :=
  ⟨fun s => ⟨exec_nop s, fun x => exec_reservedS x s, fun x => exec_reservedH x s⟩,
    fun _ _ _ he => sampleWord_not_reserved he⟩

end Sys2Proof.Machine

/-! Proofs of the decoder family: the outcome of a table entry (R63). -/

namespace Sys2Proof.Machine

open Sys2Proof

/-- R63, with DIR_CW looked at first. -/
theorem outcome_eq_ite (e : Entry) :
    outcome e = if e.getLsbD 4 then .cw else if e.getLsbD 5 then .ccw else .none := by
  unfold outcome entryDirCw entryDirCcw
  cases e.getLsbD 4
  · cases e.getLsbD 5 <;> rfl
  · rfl

/-- R63: the outcome is a function of the two direction bits alone. -/
theorem outcome_congr {e f : Entry} (hcw : e.getLsbD 4 = f.getLsbD 4) (hccw : e.getLsbD 5 = f.getLsbD 5) :
    outcome e = outcome f := by
  rw [outcome_eq_ite, outcome_eq_ite, hcw, hccw]

/-- Bit by bit, what an admitted table may hold (R60, R72). -/
theorem entryAdmitted_iff {e : Entry} :
    entryAdmitted e = true ↔ e.getLsbD 3 = false ∧ ¬ (e.getLsbD 4 = true ∧ e.getLsbD 5 = true) := by
  rw [entryAdmitted, Bool.and_eq_true, Bool.not_eq_true', Bool.not_eq_true', ← Bool.not_eq_true (_ && _),
    Bool.and_eq_true]
  rfl

/-- Settles O29: the outcome reads the direction bits alone, and the check of R26 admits no entry with both set. -/
theorem outcomeIsTheDirectionBitThatIsSet : Obligations.OutcomeIsTheDirectionBitThatIsSet :=
  ⟨outcome_eq_ite, fun _ _ => outcome_congr, fun _ _ a x h => (entryAdmitted_iff.1 (h.entry a x)).2⟩

end Sys2Proof.Machine

/-! Proofs of the position family: normalization under the three policies (R74 to R76), APPLY of an outcome (R77,
R85), SET (R81), and the commands that return something to the host (R78, R79, R82). -/

namespace Sys2Proof.Machine

open Sys2Proof

/-! ### Normalization -/

theorem wrapW_congr {w : Nat} {z y : Int} (hd : (2 : Int) ^ w ∣ z - y) : wrapW w z = wrapW w y := by
  have hmod : (z + 2 ^ (w - 1)) % 2 ^ w = (y + 2 ^ (w - 1)) % 2 ^ w := by
    rw [Int.emod_eq_emod_iff_emod_sub_eq_zero, add_sub_add_right_eq_sub]
    exact Int.emod_eq_zero_of_dvd hd
  rw [wrapW, hmod, wrapW]

/-- `wrap_W(z)` is the only integer of the signed W-bit range that differs from `z` by a multiple of 2^W (R9). -/
theorem wrapW_eq_of_dvd {w : Nat} (hw : 1 ≤ w) {z y : Int} (lo : -(2 : Int) ^ (w - 1) ≤ y)
    (hi : y < (2 : Int) ^ (w - 1)) (hd : (2 : Int) ^ w ∣ z - y) : wrapW w z = y := by
  rw [wrapW_congr hd, wrapW_of_fits hw lo hi]

theorem clamp_of_lt {z lo hi : Int} (hb : lo ≤ hi) (hz : z < lo) : clamp z lo hi = lo := by
  unfold clamp
  omega

theorem clamp_of_gt {z lo hi : Int} (hz : hi < z) : clamp z lo hi = hi := by
  unfold clamp
  omega

theorem clamp_of_mem {z lo hi : Int} (hz : lo ≤ z ∧ z ≤ hi) : clamp z lo hi = z := by
  unfold clamp
  omega

section valid
variable {c : Cfg} {tt : Table} (h : ValidConfig c tt)
include h

theorem ValidConfig.one_le_width : 1 ≤ c.w := le_trans one_le_two h.width

/-- R76 by the place of `z`: below MIN, above MAX, or between them. -/
theorem rangeNorm_bounded_cases (hp : c.policy = .bounded) (z : Int) :
    (z < c.min.toInt → rangeNorm c z = c.min.toInt) ∧ (c.max.toInt < z → rangeNorm c z = c.max.toInt) ∧
      (c.min.toInt ≤ z ∧ z ≤ c.max.toInt → rangeNorm c z = z) := by
  rw [rangeNorm_bounded hp]
  exact ⟨clamp_of_lt (h.bounds (by simp [hp])), clamp_of_gt, clamp_of_mem⟩

/-- `Norm` meets the description of it by range and congruence, or by the place of `z` (R74 to R76). -/
theorem rangeNorm_normalizes (z : Int) : Normalizes c z (rangeNorm c z) := by
  unfold Normalizes
  split
  next hp =>
    rw [rangeNorm_unbounded hp]
    exact ⟨(wrapW_bounds h.one_le_width z).1, (wrapW_bounds h.one_le_width z).2, dvd_sub_wrapW c.w z⟩
  next hp =>
    obtain ⟨hlo, hhi⟩ := rangeNorm_mem h (by simp [hp]) z
    refine ⟨hlo, hhi, ?_⟩
    rw [rangeNorm_wrap hp, ← sub_sub]
    exact Int.dvd_self_sub_emod
  next hp => exact rangeNorm_bounded_cases h hp z

/-- The range of a configuration has at most as many values as a W-bit word (R75). -/
theorem rangeSize_le : rangeSize c ≤ (2 : Int) ^ c.w := by
  have hmin := (toInt_bounds c.min).1
  have hmax := (toInt_bounds c.max).2
  have hsplit := two_pow_split h.one_le_width
  unfold rangeSize
  omega

end valid

/-- Settles O38: `Norm` is `wrap_W` here, which VALUE holds exactly because it fits. -/
theorem unboundedNormalizationWrapsAtTheWidth : Obligations.UnboundedNormalizationWrapsAtTheWidth := by
  intro s z h hp
  obtain ⟨hlo, hhi⟩ := rangeNorm_fits h z
  have hdvd : (2 : Int) ^ s.cfg.w ∣ z - rangeNorm s.cfg z := by
    rw [rangeNorm_unbounded hp]
    exact dvd_sub_wrapW s.cfg.w z
  exact ⟨hlo, hhi, hdvd, fun hz => rangeNorm_of_mem h hz (absurd hp), toInt_writeValue_rangeNorm h z⟩

/-- Settles O39: the remainder of `z - MIN` by the range size is the `k` of the statement. -/
theorem wrapNormalizationIsTheRemainderInTheRange : Obligations.WrapNormalizationIsTheRemainderInTheRange := by
  intro s z h hp
  have hne : s.cfg.policy ≠ .unbounded := by simp [hp]
  have hpos : 0 < rangeSize s.cfg := h.rangeSize_pos hne
  obtain ⟨hlo, hhi⟩ := rangeNorm_mem h hne z
  exact ⟨hpos, rangeSize_le h,
    ⟨(z - s.cfg.min.toInt) % rangeSize s.cfg, Int.emod_nonneg _ hpos.ne', Int.emod_lt_of_pos _ hpos,
      Int.dvd_self_sub_emod, rangeNorm_wrap hp z⟩,
    hlo, hhi, toInt_writeValue_rangeNorm h z⟩

/-- Settles O40, by the place of `z` against the two bounds. -/
theorem boundedNormalizationClamps : Obligations.BoundedNormalizationClamps := by
  intro s z h hp
  obtain ⟨hbelow, habove, hbetween⟩ := rangeNorm_bounded_cases h hp z
  obtain ⟨hlo, hhi⟩ := rangeNorm_mem h (by simp [hp]) z
  exact ⟨hbelow, habove, hbetween, hlo, hhi, toInt_writeValue_rangeNorm h z⟩

/-! ### APPLY -/

theorem outcome_eq_cw {e : Entry} : outcome e = .cw ↔ e.getLsbD 4 = true := by
  rw [outcome_eq_ite]
  cases e.getLsbD 4 <;> cases e.getLsbD 5 <;> decide

/-- In an admitted entry DIR_CCW alone decides the counter-clockwise outcome: DIR_CW is not set beside it (R60). -/
theorem outcome_eq_ccw {e : Entry} (he : entryAdmitted e = true) : outcome e = .ccw ↔ e.getLsbD 5 = true := by
  have hboth : ¬ (e.getLsbD 4 = true ∧ e.getLsbD 5 = true) := (entryAdmitted_iff.1 he).2
  rw [outcome_eq_ite]
  revert hboth
  cases e.getLsbD 4 <;> cases e.getLsbD 5 <;> decide

theorem delta_cw (c : Cfg) : delta c .cw = if c.reverse then -(c.incr.toNat : Int) else c.incr.toNat := rfl

theorem delta_ccw (c : Cfg) : delta c .ccw = if c.reverse then (c.incr.toNat : Int) else -c.incr.toNat := rfl

theorem applied_normalizes {c : Cfg} {tt : Table} (h : ValidConfig c tt) (v : Word c.w) {o : Direction}
    (ho : o ≠ .none) : Normalizes c (v.toInt + delta c o) (applied c v o).toInt := by
  rw [toInt_applied h v ho]
  exact rangeNorm_normalizes h _

/-- Settles O26: the outcome is the direction bit that is set, and VALUE is moved by its `Delta` and normalized. -/
theorem sampleStepsTheDecoderAndAppliesTheOutcome : Obligations.SampleStepsTheDecoderAndAppliesTheOutcome := by
  intro s x h
  refine ⟨_, _, exec_sample x s, outcome_eq_cw, outcome_eq_ccw (h.entry s.automaton x), fun ho => ?_, fun ho => ?_,
    fun ho => ?_⟩
  · rw [ho, applied_none]
  · rw [ho, ← delta_cw]
    exact applied_normalizes h s.value (by decide)
  · rw [ho, ← delta_ccw]
    exact applied_normalizes h s.value (by decide)

theorem toInt_applied_unbounded {c : Cfg} {tt : Table} (h : ValidConfig c tt) (hp : c.policy = .unbounded)
    (v : Word c.w) {o : Direction} (ho : o ≠ .none) : (applied c v o).toInt = wrapW c.w (v.toInt + delta c o) := by
  rw [toInt_applied h v ho, rangeNorm_unbounded hp]

/-- One past the top of the signed range is the bottom (R85). -/
theorem wrapW_top_succ {w : Nat} (hw : 1 ≤ w) : wrapW w (2 ^ (w - 1) - 1 + 1) = -(2 : Int) ^ (w - 1) := by
  have hpos := two_pow_pos (w - 1)
  refine wrapW_eq_of_dvd hw le_rfl (by omega) ⟨1, ?_⟩
  rw [two_pow_split hw]
  ring

/-- One before the bottom of the signed range is the top (R85). -/
theorem wrapW_bottom_pred {w : Nat} (hw : 1 ≤ w) : wrapW w (-2 ^ (w - 1) + -1) = (2 : Int) ^ (w - 1) - 1 := by
  have hpos := two_pow_pos (w - 1)
  refine wrapW_eq_of_dvd hw (by omega) (by omega) ⟨-1, ?_⟩
  rw [two_pow_split hw]
  ring

/-- Settles O45: with INCR = 1 and REVERSE = 0 the moved value is one past an end of the range. -/
theorem unboundedOverflowWrapsAround : Obligations.UnboundedOverflowWrapsAround := by
  intro s x h hp hincr hrev
  have hcw : delta s.cfg .cw = 1 := by simp [delta_cw, hincr, hrev]
  have hccw : delta s.cfg .ccw = -1 := by simp [delta_ccw, hincr, hrev]
  refine ⟨_, _, _, exec_sample x s, rfl, fun ho htop => ?_, fun ho hbottom => ?_⟩
  · rw [ho, toInt_applied_unbounded h hp _ (by decide), htop, hcw]
    exact wrapW_top_succ h.one_le_width
  · rw [ho, toInt_applied_unbounded h hp _ (by decide), hbottom, hccw]
    exact wrapW_bottom_pred h.one_le_width

/-! ### SET -/

/-- A well-formed operand is in the signed W-bit range (R50). -/
theorem bounds_of_wellFormed_set {w : Nat} {v : Int} (hv : WellFormed w (.set v) = true) :
    -(2 : Int) ^ (w - 1) ≤ v ∧ v < (2 : Int) ^ (w - 1) := by
  rw [← setOperand_of_fits hv]
  exact toInt_bounds (BitVec.ofInt w v)

theorem exec_set_of_fits {s : State} {v : Int} (hv : WellFormed s.cfg.w (.set v) = true) :
    exec (.set v) s = .next (s.writeValue (rangeNorm s.cfg v)) := by
  rw [exec_set, setOperand_of_fits hv]

/-- Under Unbounded every operand that fits is written as it is (R81). -/
theorem rangeNorm_operand_of_unbounded {c : Cfg} {tt : Table} (h : ValidConfig c tt) (hp : c.policy = .unbounded)
    {v : Int} (hv : WellFormed c.w (.set v) = true) : rangeNorm c v = v :=
  rangeNorm_of_mem h (bounds_of_wellFormed_set hv) (absurd hp)

/-- Settles O53: the operand reaches `Norm` unchanged, and VALUE holds the normalized operand exactly. -/
theorem setWritesTheNormalizedOperand : Obligations.SetWritesTheNormalizedOperand := by
  intro s v h hv
  refine ⟨BitVec.ofInt s.cfg.w (rangeNorm s.cfg v), exec_set_of_fits hv, ?_, fun hp => ?_, exec_set_of_fits hv⟩
  · rw [toInt_writeValue_rangeNorm h]
    exact rangeNorm_normalizes h v
  · rw [toInt_writeValue_rangeNorm h, rangeNorm_operand_of_unbounded h hp hv]

/-! ### Host commands at the ports -/

@[simp] theorem endCycle_results (s : State) (sampled : Bool) : (s.endCycle sampled).results = s.results := by
  cases sampled <;> rfl

/-- A valid command is performed as the command that R51's table names (R53). -/
theorem performPort_hostWord_of_valid {w : Nat} {p : Ports w} (hv : p.cmdValid = true) (s : State) :
    performPort p.hostWord s = exec (portCommand p.cmd p.wdata) s := by
  rw [Ports.hostWord, if_pos hv, performPort, performWord, decode_hostCommand]

theorem performPort_sampleWord_of_valid {w : Nat} {p : Ports w} (hv : p.smpValid = true) (s : State) :
    performPort p.sampleWord s = exec (.sample ⟨p.smp.getLsbD 1, p.smp.getLsbD 0⟩) s := by
  rw [Ports.sampleWord, if_pos hv, performPort, performWord, decode_sample]

/-- Without a valid sample the sample port leaves the state as it is. -/
theorem performPort_sampleWord_of_not_valid {w : Nat} {p : Ports w} (hv : p.smpValid = false) (s : State) :
    performPort p.sampleWord s = .next s := by
  simp [Ports.sampleWord, hv, performPort]

/-- The sample port returns one result, to the sample source, where it presents a sample (R53, R64). -/
theorem performPort_sampleWord_results {w : Nat} (p : Ports w) (s : State) : ∃ t new,
    performPort p.sampleWord s = .next t ∧ t.results = new ++ s.results ∧
      new.length = (if p.smpValid then 1 else 0) ∧ ∀ r ∈ new, r.agent = .sampleSource := by
  cases hv : p.smpValid with
  | false => exact ⟨s, [], performPort_sampleWord_of_not_valid hv s, rfl, rfl, by simp⟩
  | true =>
    exact ⟨_, [_], (performPort_sampleWord_of_valid hv s).trans (exec_sample _ s), rfl, rfl, by simp [Result.agent]⟩

/-- A launched block of a valid configuration performs the cycle of the ports presented next. -/
theorem step_ports {s : State} {p : Ports s.cfg.w} {rest : List (Input s.cfg.w)} (h : ValidConfig s.cfg s.tt)
    (hl : s.launched = true) (hin : s.inputs = .ports p :: rest) : step s = clockCycle p s.dropInput := by
  rw [step_of_valid h, hin]
  exact runInput_ports_of_launched p hl

/-- What a command returns as an event it returns in its cycle too: it sees the state at the start of the cycle (R42),
and the SAMPLE after it adds its own result in front. -/
theorem commandReturns_of_exec {cmd : BitVec 3} {result : (s : State) → Outputs s.cfg.w → Result}
    (hexec : ∀ (s : State) (v : Word s.cfg.w),
      exec (portCommand cmd v) s.dropInput = .next (s.dropInput.returns (result s s.outputs))) :
    CommandReturns cmd result := by
  rintro s p rest h hl hin hrst hcmd rfl
  obtain ⟨t, new, hsample, hresults, hlen, hagent⟩ :=
    performPort_sampleWord_results p (s.dropInput.returns (result s s.outputs))
  refine ⟨t.endCycle p.smpValid, new, ?_, ?_, hlen, hagent⟩
  · rw [step_ports h hl hin, clockCycle, hrst, performPort_hostWord_of_valid hcmd, hexec, andThen_next, hsample]
    rfl
  · rw [endCycle_results, hresults, returns_results, dropInput_results]

/-! ### READ, ANGLE and STATE -/

/-- After a SET under Unbounded, READ returns the operand (R78). -/
theorem execAll_set_read {s : State} {v : Int} (h : ValidConfig s.cfg s.tt) (hp : s.cfg.policy = .unbounded)
    (hv : WellFormed s.cfg.w (.set v) = true) :
    execAll [.set v, .read] s = .next ((s.writeValue v).returns (.value v)) := by
  have hset : exec (.set v) s = .next (s.writeValue v) := by
    rw [exec_set_of_fits hv, rangeNorm_operand_of_unbounded h hp hv]
  have hvalue : (s.writeValue v).value.toInt = v := setOperand_of_fits hv
  rw [execAll_of_next hset, execAll_of_next (exec_read _), execAll_nil, hvalue]

/-- Settles O50: READ by its equation, and at the ports by the state at the start of the cycle. -/
theorem readReturnsTheValue : Obligations.ReadReturnsTheValue :=
  ⟨exec_read, fun s => execAll_twice (exec_read s) (exec_read _),
    fun _ _ h hp hv => ⟨_, execAll_set_read h hp hv, rfl⟩,
    commandReturns_of_exec fun s _ => exec_read s.dropInput⟩

/-- Settles O51: VALUE is within `[MIN, MAX]`, here [0, 359], by R19. -/
theorem angleReturnsTheValue : Obligations.AngleReturnsTheValue := by
  refine ⟨exec_angle, fun _ => rfl, fun _ => rfl, fun s _ hp hmin hmax hr => ?_,
    commandReturns_of_exec fun s _ => exec_angle s.dropInput⟩
  obtain ⟨hlo, hhi⟩ := hr (by simp [hp])
  exact ⟨_, _, exec_angle s, rfl, hmin ▸ hlo, hmax ▸ hhi⟩

/-- No event depends on what was returned before it: one more result on record stays there, and the event adds its own
in front (R82). -/
theorem exec_after_returns {i : Instr} {s u : State} (h : exec i s = .next u) : ∃ new, u.results = new ++ s.results ∧
    ∀ q, exec i (s.returns q) = .next { u with results := new ++ (s.returns q).results } := by
  cases i with
  | sample x | read | angle | state =>
    cases h
    exact ⟨[_], rfl, fun _ => rfl⟩
  | reservedS x | nop | reset | set v | reservedH x =>
    cases h
    exact ⟨[], rfl, fun _ => rfl⟩

/-- Settles O54: STATE adds one result and nothing else, which no later event reads. -/
theorem stateReturnsTheCode : Obligations.StateReturnsTheCode := by
  refine ⟨exec_state, fun s t u i hstate hi => ?_, commandReturns_of_exec fun s _ => exec_state s.dropInput⟩
  cases hstate
  obtain ⟨new, hresults, hafter⟩ := exec_after_returns hi
  exact ⟨new, hresults, hafter _⟩

end Sys2Proof.Machine

/-! Proofs of the reset and hazards family: every event completes in the step that performs it (R96, R115). -/

namespace Sys2Proof.Machine

open Sys2Proof

/-! ### One cycle -/

/-- An event word that R48 admits is one that decodes. -/
theorem admitted_event {w : Nat} {e : EventWord w} :
    (Input.event e).admitted = true ↔ ∃ i, decode e = .ok i := by
  cases hd : decode e <;> simp [Input.admitted, hd]

/-- The host port completes, with a command or without (R53). -/
theorem performPort_hostWord_next {w : Nat} (p : Ports w) (s : State) : ∃ t, performPort p.hostWord s = .next t := by
  cases hv : p.cmdValid with
  | false => exact ⟨s, performPort_hostWord_of_not_valid hv s⟩
  | true =>
    rw [performPort_hostWord_of_valid hv]
    exact exec_next _ s

/-- The cycle of an event word completes with its event. -/
theorem eventCycle_next {w : Nat} {e : EventWord w} {i : Instr} (hd : decode e = .ok i) (s : State) :
    ∃ t, eventCycle e s = .next t := by
  obtain ⟨u, hu⟩ := exec_next i s
  have hword : performWord e s = .next u := by
    rw [performWord, hd]
    exact hu
  exact ⟨u.endCycle e.isSample, by rw [eventCycle, hword, andThen_next]⟩

/-- A cycle of the ports completes, whatever they present: `rst` alone, or the two ports one after the other (R42). -/
theorem clockCycle_next {w : Nat} (p : Ports w) (s : State) : ∃ t, clockCycle p s = .next t := by
  cases hr : p.rst with
  | true => exact ⟨s.hardwareReset, by rw [clockCycle, if_pos hr]⟩
  | false =>
    obtain ⟨u, hhost⟩ := performPort_hostWord_next p s
    obtain ⟨v, -, hsample, -⟩ := performPort_sampleWord_results p u
    refine ⟨v.endCycle p.smpValid, ?_⟩
    rw [clockCycle, hr, if_neg Bool.false_ne_true, hhost, andThen_next, hsample, andThen_next]

/-! ### One step -/

/-- A launched block completes every admitted input: R32 has nothing to refuse, and a word decodes. -/
theorem runInput_next {w : Nat} {inp : Input w} {s : State} (hl : s.launched = true) (ha : inp.admitted = true) :
    ∃ t, runInput inp s = .next t := by
  cases inp with
  | event e =>
    obtain ⟨i, hd⟩ := admitted_event.1 ha
    have hrun : runInput (.event e) s = eventCycle e s := by simp [runInput, hl]
    rw [hrun]
    exact eventCycle_next hd s
  | ports p =>
    rw [runInput_ports_of_launched p hl]
    exact clockCycle_next p s

theorem step_next_of_ready {s : State} (h : s.Ready) : ∃ t, step s = .next t := by
  rw [step_of_valid h.valid]
  cases hin : s.inputs with
  | nil => exact ⟨_, rfl⟩
  | cons inp rest =>
    have ha : inp.admitted = true := h.admitted inp (by rw [hin]; rfl)
    exact runInput_next (s := s.dropInput) h.launched ha

/-- Settles O20: a step by the kind of its next input, and a sequence by induction, each event answering a next
state. -/
theorem everyEventCompletesInOneStep : Obligations.EveryEventCompletesInOneStep :=
  ⟨fun _ h => step_next_of_ready h, fun s is => execAll_next is s⟩

end Sys2Proof.Machine

/-! Proofs of the other statements: encoding. The event word of an event and the event of an event word are each
other's inverse (R48 to R51, R54), and only a misplaced operand is rejected (R48). -/

namespace Sys2Proof.Machine

open Sys2Proof

/-! ### Pin samples -/

theorem pinSample_toNat (clk dt : Bool) : (PinSample.bits ⟨clk, dt⟩).toNat = 2 * clk.toNat + dt.toNat := by
  cases clk <;> cases dt <;> rfl

@[simp] theorem bits_ofBits (x : BitVec 2) : (PinSample.ofBits x).bits = x := by
  revert x
  decide

@[simp] theorem ofBits_bits (x : PinSample) : PinSample.ofBits x.bits = x := by
  obtain ⟨clk, dt⟩ := x
  cases clk <;> cases dt <;> rfl

/-- Settles O6: the four pairs of levels, the four 2-bit samples. -/
theorem pinSampleIsClockHighDataLow : Obligations.PinSampleIsClockHighDataLow :=
  ⟨pinSample_toNat, bits_ofBits, ofBits_bits⟩

/-! ### Decoding what was encoded -/

/-- Settles O2: each event by its row of the opcode table, SET by its operand, which fits. -/
theorem decodeOfEncodeIsTheEvent : Obligations.DecodeOfEncodeIsTheEvent := by
  intro w i hi
  cases i with
  | sample x =>
    calc decode (encode w (.sample x)) = .ok (.sample (PinSample.ofBits x.bits)) := decode_sample x.bits
      _ = .ok (.sample x) := by rw [ofBits_bits]
  | reservedS x => exact decode_reservedS x
  | nop => exact decode_nop
  | read => exact decode_read
  | angle => exact decode_angle
  | reset => exact decode_reset
  | set v =>
    calc decode (encode w (.set v)) = .ok (.set (setOperand w v)) := decode_set (BitVec.ofInt w v)
      _ = .ok (.set v) := by rw [setOperand_of_fits hi]
  | state => exact decode_state
  | reservedH x => exact decode_reservedH x

/-! ### Encoding what was decoded -/

/-- The code of the event of a code is that code (R51), checked over the 16 codes. -/
theorem encodeCode_of_decodeCode {c : EventCode} {i : Instr} (h : decodeCode c = some i) : encodeCode i = c := by
  have hall : ∀ c : EventCode, ∀ i ∈ decodeCode c, encodeCode i = c := by decide
  exact hall c i h

/-- The event of a code alone is not SET, so it has no operand and can be written down in any block. -/
theorem encodeOperand_of_decodeCode {c : EventCode} {i : Instr} (h : decodeCode c = some i) (w : Nat) :
    encodeOperand w i = none ∧ WellFormed w i = true := by
  cases i with
  | set v =>
    have hc : setCode = c := encodeCode_of_decodeCode h
    have hnone : decodeCode c = none := (decodeCode_eq_none c).2 hc.symm
    rw [hnone] at h
    cases h
  | _ => exact ⟨rfl, rfl⟩

/-- What a word decodes to: the event of its code where no operand follows, and SET where one follows SET's code. -/
theorem decode_eq_ok {w : Nat} {e : EventWord w} {i : Instr} : decode e = .ok i ↔
    (e.operand = none ∧ decodeCode e.code = some i) ∨
      ∃ v, e.code = setCode ∧ e.operand = some v ∧ i = .set v.toInt := by
  have hset : decodeCode e.code = none ↔ e.code = setCode := decodeCode_eq_none e.code
  unfold decode
  rw [← hset]
  cases decodeCode e.code <;> cases e.operand <;> simp [eq_comm]

/-- The integer of a W-bit word fits in signed W bits (R8). -/
theorem fitsSigned_toInt {w : Nat} (v : Word w) : fitsSigned w v.toInt = true := by
  have hlo := BitVec.le_two_mul_toInt (x := v)
  have hhi := BitVec.two_mul_toInt_lt (x := v)
  simp only [fitsSigned, Bool.and_eq_true, decide_eq_true_eq]
  exact ⟨hlo, hhi⟩

/-- Settles O3: without an operand by the code, with one by reading the operand and writing it again. -/
theorem encodeOfDecodeIsTheEventWord : Obligations.EncodeOfDecodeIsTheEventWord := by
  rintro w ⟨code, operand⟩ i h
  obtain ⟨hop, hcode⟩ | ⟨v, hcode, hop, rfl⟩ := decode_eq_ok.1 h
  · obtain ⟨hnone, hwf⟩ := encodeOperand_of_decodeCode hcode w
    exact ⟨hwf, by rw [encode, encodeCode_of_decodeCode hcode, hnone, ← hop]⟩
  · have hword : encodeOperand w (.set v.toInt) = operand := by rw [encodeOperand, ofInt_toInt, ← hop]
    exact ⟨fitsSigned_toInt v, by rw [encode, hword, encodeCode, ← hcode]⟩

/-! ### Rejected words -/

theorem decodeCode_isSome (c : EventCode) : (∃ i, decodeCode c = some i) ↔ c ≠ setCode := by
  rw [← Option.ne_none_iff_exists', Ne, decodeCode_eq_none, setCode]

/-- An event word decodes exactly when it has an operand where its code is SET's and nowhere else. -/
theorem exists_decode_eq_ok {w : Nat} (e : EventWord w) :
    (∃ i, decode e = .ok i) ↔ (e.operand.isSome = true ↔ e.code = 0b1100#4) := by
  have hcode : (∃ i, decodeCode e.code = some i) ↔ e.code ≠ 0b1100#4 := decodeCode_isSome e.code
  cases hop : e.operand <;> simp [decode_eq_ok, hop, hcode, setCode]

theorem decode_eq_missingOperand {w : Nat} (e : EventWord w) :
    decode e = .error .missingOperand ↔ e.code = 0b1100#4 ∧ e.operand = none := by
  rw [← decodeCode_eq_none]
  unfold decode
  cases decodeCode e.code <;> cases e.operand <;> simp

theorem decode_eq_strayOperand {w : Nat} (e : EventWord w) :
    decode e = .error .strayOperand ↔ e.code ≠ 0b1100#4 ∧ e.operand.isSome = true := by
  rw [Ne, ← decodeCode_eq_none]
  unfold decode
  cases decodeCode e.code <;> cases e.operand <;> simp

/-- Settles O4: the code decides whether an operand is due, the word whether one is there. -/
theorem decodingRejectsExactlyTheMisplacedOperands : Obligations.DecodingRejectsExactlyTheMisplacedOperands :=
  fun _ e => ⟨exists_decode_eq_ok e, decode_eq_missingOperand e, decode_eq_strayOperand e⟩

end Sys2Proof.Machine

/-! Proofs of the other statements: events. Which registers an event writes (R33), that every write leaves VALUE in
range (R87), and what the outcomes depend on (R16, R103). -/

namespace Sys2Proof.Machine

open Sys2Proof

/-! ### Which event writes which register -/

theorem eq_sample_of_isSampleEvent {i : Instr} (h : isSampleEvent i = true) : ∃ x, i = .sample x := by
  cases i with
  | sample x => exact ⟨x, rfl⟩
  | _ => cases h

/-- An event that is no SAMPLE leaves DIR_OUT (R33). -/
theorem exec_dirOut_of_not_sample {i : Instr} {s t : State} (h : exec i s = .next t)
    (hi : isSampleEvent i = false) : t.dirOut = s.dirOut := by
  cases i with
  | sample x => cases hi
  | _ => cases h; rfl

/-- Settles O24, event by event. -/
theorem onlyTheListedEventsWriteEachRegister : Obligations.OnlyTheListedEventsWriteEachRegister := by
  intro i s
  cases i with
  | sample x =>
    refine ⟨_, _, _, [_], exec_sample x s, nofun, ?_, rfl⟩
    by_cases ho : outcome (ttRead s.tt s.automaton x) = .none
    · exact .inl (by rw [ho, applied_none])
    · exact .inr (.inr (.inr ⟨x, rfl, ho⟩))
  | read => exact ⟨_, _, _, [_], exec_read s, fun _ => ⟨rfl, rfl⟩, .inl rfl, rfl⟩
  | angle => exact ⟨_, _, _, [_], exec_angle s, fun _ => ⟨rfl, rfl⟩, .inl rfl, rfl⟩
  | state => exact ⟨_, _, _, [_], exec_state s, fun _ => ⟨rfl, rfl⟩, .inl rfl, rfl⟩
  | reset => exact ⟨_, _, _, [], exec_reset s, fun _ => ⟨rfl, rfl⟩, .inr (.inl rfl), rfl⟩
  | set v => exact ⟨_, _, _, [], exec_set v s, fun _ => ⟨rfl, rfl⟩, .inr (.inr (.inl ⟨v, rfl⟩)), rfl⟩
  | nop => exact ⟨_, _, _, [], exec_nop s, fun _ => ⟨rfl, rfl⟩, .inl rfl, rfl⟩
  | reservedS x => exact ⟨_, _, _, [], exec_reservedS x s, fun _ => ⟨rfl, rfl⟩, .inl rfl, rfl⟩
  | reservedH x => exact ⟨_, _, _, [], exec_reservedH x s, fun _ => ⟨rfl, rfl⟩, .inl rfl, rfl⟩

/-! ### What the outcomes depend on -/

/-- An event that is no SAMPLE returns no outcome (R33). -/
theorem exec_outcomes_of_not_sample {i : Instr} {s t : State} (h : exec i s = .next t)
    (hi : isSampleEvent i = false) : outcomesOf t.results = outcomesOf s.results := by
  cases i with
  | sample x => cases hi
  | _ => cases h; rfl

/-- What a SAMPLE does to STATE and returns is a function of the table, STATE and the sample (R16, R64). -/
theorem exec_sample_decoder (x : PinSample) (s : State) : ∃ t, exec (.sample x) s = .next t ∧ t.tt = s.tt ∧
    t.automaton = entryNext (ttRead s.tt s.automaton x) ∧
    outcomesOf t.results = [outcome (ttRead s.tt s.automaton x)] ++ outcomesOf s.results :=
  ⟨_, exec_sample x s, rfl, rfl, rfl⟩

/-- Settles O25, by induction on the events: a host event is passed over, a SAMPLE meets the same table and STATE on
both sides. -/
theorem outcomesDependOnTheSamplesAlone : Obligations.OutcomesDependOnTheSamplesAlone := by
  intro s r is htt ha
  induction is generalizing s r with
  | nil => exact ⟨s, r, [], rfl, rfl, ha, rfl, rfl⟩
  | cons i is ih =>
    cases hi : isSampleEvent i with
    | false =>
      obtain ⟨s', hs⟩ := exec_next i s
      have htt' : s'.tt = r.tt := (exec_next_cfg hs).2.1.trans htt
      have ha' : s'.automaton = r.automaton := (exec_automaton_of_not_sample hs hi).trans ha
      obtain ⟨t, u, ds, ht, hu, hau, hout⟩ := ih s' r htt' ha'
      rw [execAll_of_next hs, List.filter_cons_of_neg (by simp [hi]), ← exec_outcomes_of_not_sample hs hi]
      exact ⟨t, u, ds, ht, hu, hau, hout⟩
    | true =>
      obtain ⟨x, rfl⟩ := eq_sample_of_isSampleEvent hi
      obtain ⟨s', hs, htts, has, hos⟩ := exec_sample_decoder x s
      obtain ⟨r', hr, httr, har, hor⟩ := exec_sample_decoder x r
      have htt' : s'.tt = r'.tt := by rw [htts, httr, htt]
      have ha' : s'.automaton = r'.automaton := by rw [has, har, htt, ha]
      obtain ⟨t, u, ds, ht, hu, hau, hot, hou⟩ := ih s' r' htt' ha'
      rw [execAll_of_next hs, List.filter_cons_of_pos hi, execAll_of_next hr]
      refine ⟨t, u, ds ++ [outcome (ttRead r.tt r.automaton x)], ht, hu, hau, ?_, ?_⟩
      · rw [hot, hos, htt, ha, List.append_assoc]
      · rw [hou, hor, List.append_assoc]

/-! ### VALUE stays in range -/

section range
variable {s : State} (h : ValidConfig s.cfg s.tt)
include h

theorem writeValue_rangeNorm_inRange (z : Int) : (s.writeValue (rangeNorm s.cfg z)).InRange := by
  intro (hp : s.cfg.policy ≠ .unbounded)
  have hvalue : (s.writeValue (rangeNorm s.cfg z)).value.toInt = rangeNorm s.cfg z := toInt_writeValue_rangeNorm h z
  rw [hvalue]
  exact rangeNorm_mem h hp z

theorem writeValue_resetValue_inRange : (s.writeValue (resetValue s.cfg)).InRange := resetOf_inRange h

theorem apply_inRange_of_ne_none {o : Direction} (ho : o ≠ .none) : (s.apply o).InRange := by
  intro (hp : s.cfg.policy ≠ .unbounded)
  rw [apply_value_toInt, toInt_applied h s.value ho]
  exact rangeNorm_mem h hp _

theorem apply_inRange (hr : s.InRange) (o : Direction) : (s.apply o).InRange := by
  by_cases ho : o = .none
  · rw [ho]
    exact hr
  · exact apply_inRange_of_ne_none h ho

/-- Every event keeps VALUE in range: SAMPLE by APPLY, RESET and SET by their writes, the others write nothing. -/
theorem exec_inRange {i : Instr} {t : State} (hr : s.InRange) (hi : exec i s = .next t) : t.InRange := by
  cases i with
  | sample x => cases hi; exact apply_inRange h hr (outcome (ttRead s.tt s.automaton x))
  | reset => cases hi; exact writeValue_resetValue_inRange h
  | set v => cases hi; exact writeValue_rangeNorm_inRange h _
  | _ => cases hi; exact hr

end range

theorem validConfig_of_exec {i : Instr} {s t : State} (h : ValidConfig s.cfg s.tt) (hi : exec i s = .next t) :
    ValidConfig t.cfg t.tt := by
  obtain ⟨hcfg, htt, -⟩ := exec_next_cfg hi
  rwa [hcfg, htt]

/-- What every event keeps, a sequence of events keeps. -/
theorem execAll_induction {P : State → Prop} (hstep : ∀ {i s t}, P s → exec i s = .next t → P t) {is : List Instr}
    {s t : State} (hs : P s) (h : execAll is s = .next t) : P t := by
  induction is generalizing s with
  | nil => cases h; exact hs
  | cons i is ih =>
    obtain ⟨u, hu, hn⟩ := andThen_eq_next.1 h
    exact ih (hstep hs hu) hn

theorem execAll_inRange {is : List Instr} {s t : State} (h : ValidConfig s.cfg s.tt) (hr : s.InRange)
    (hi : execAll is s = .next t) : t.InRange :=
  (execAll_induction (P := fun u => ValidConfig u.cfg u.tt ∧ u.InRange)
    (fun ⟨hv, hr⟩ he => ⟨validConfig_of_exec hv he, exec_inRange hv hr he⟩) ⟨h, hr⟩ hi).2

/-- The host events that return something or nothing, and write no register. -/
theorem exec_of_readOnly {i : Instr} (hi : i ∈ [Instr.read, .angle, .state, .nop]) (s : State) :
    ∃ r, exec i s = .next { s with results := r } := by
  obtain rfl | rfl | rfl | rfl : i = .read ∨ i = .angle ∨ i = .state ∨ i = .nop := by simpa using hi
  · exact ⟨_, exec_read s⟩
  · exact ⟨_, exec_angle s⟩
  · exact ⟨_, exec_state s⟩
  · exact ⟨_, exec_nop s⟩

/-- Settles O41, write by write, and by induction for sequences. -/
theorem writesLeaveValueInRange : Obligations.WritesLeaveValueInRange := by
  intro s h
  refine ⟨fun _ => apply_inRange_of_ne_none h, apply_inRange h, ⟨_, exec_reset s, writeValue_resetValue_inRange h⟩,
    fun v => ⟨_, exec_set v s, writeValue_rangeNorm_inRange h _⟩, writeValue_resetValue_inRange h,
    fun i hi => exec_of_readOnly hi s, fun hr is => ?_⟩
  obtain ⟨t, ht⟩ := execAll_next is s
  exact ⟨t, ht, execAll_inRange h hr ht⟩

end Sys2Proof.Machine

/-! Proofs of the other statements: the decoder under TT_REF. The grid of R58, and what is read off it: the detents
(R65, R66), the resynchronization at rest (R67), the unreachable ILLEGAL (R62, R68), repeated samples (R69). -/

namespace Sys2Proof.Machine

open Sys2Proof

/-! ### The grid of R58 -/

/-- TT_REF holds what the grid says. -/
theorem ttRead_of_mem_grid : ∀ g ∈ referenceGrid,
    entryNext (ttRead tableRef g.1 g.2.1) = g.2.2.1 ∧ outcome (ttRead tableRef g.1 g.2.1) = g.2.2.2 := by decide

/-- The grid has a cell for every state and sample, and it is the entry of TT_REF. -/
theorem mem_grid (a : Automaton) (x : PinSample) :
    (a, x, entryNext (ttRead tableRef a x), outcome (ttRead tableRef a x)) ∈ referenceGrid := by
  obtain ⟨clk, dt⟩ := x
  cases a <;> cases clk <;> cases dt <;> decide

/-- What holds of the 32 cells of the grid holds of every read of TT_REF. -/
theorem forall_ref {P : Automaton → PinSample → Automaton → Direction → Prop}
    (hgrid : ∀ g ∈ referenceGrid, P g.1 g.2.1 g.2.2.1 g.2.2.2) (a : Automaton) (x : PinSample) :
    P a x (entryNext (ttRead tableRef a x)) (outcome (ttRead tableRef a x)) :=
  hgrid _ (mem_grid a x)

/-- SAMPLE under TT_REF, by a cell of the grid. -/
theorem exec_sample_of_mem_grid {s : State} {x : PinSample} {a n : Automaton} {o : Direction} (htt : s.tt = tableRef)
    (ha : s.automaton = a) (hg : (a, x, n, o) ∈ referenceGrid) : exec (.sample x) s = .next { s with
      automaton := n
      value := applied s.cfg s.value o
      dirOut := dirBits o
      results := .direction o :: s.results } := by
  obtain ⟨hn, ho⟩ := ttRead_of_mem_grid _ hg
  rw [← htt, ← ha] at hn ho
  exact exec_sample_of hn ho

/-- Settles O27: each cell of the grid is the entry of TT_REF. -/
theorem sampleFollowsTheReferenceTable : Obligations.SampleFollowsTheReferenceTable := by
  rintro ⟨a, x, n, o⟩ hg s htt rfl
  refine ⟨_, exec_sample_of_mem_grid htt rfl hg, ?_⟩
  rintro rfl
  exact applied_none s.cfg s.value

/-! ### ILLEGAL -/

theorem illegal_row (x : PinSample) : (Automaton.illegal, x, Automaton.start, Direction.none) ∈ referenceGrid := by
  obtain ⟨clk, dt⟩ := x
  cases clk <;> cases dt <;> decide

/-- Settles O30, by the row of ILLEGAL. -/
theorem illegalHealsOnTheNextSample : Obligations.IllegalHealsOnTheNextSample := by
  intro s x htt ha
  exact exec_sample_of_mem_grid htt ha (illegal_row x)

theorem entryNext_ref_ne_illegal (a : Automaton) (x : PinSample) : entryNext (ttRead tableRef a x) ≠ .illegal :=
  forall_ref (P := fun _ _ n _ => n ≠ .illegal) (by decide) a x

/-- Under TT_REF no event leads from a legal state to ILLEGAL (R68). -/
theorem exec_legal {i : Instr} {s t : State} (htt : s.tt = tableRef) (ha : s.automaton ≠ .illegal)
    (h : exec i s = .next t) : t.automaton ≠ .illegal := by
  cases hi : isSampleEvent i with
  | false => rwa [exec_automaton_of_not_sample h hi]
  | true =>
    obtain ⟨x, rfl⟩ := eq_sample_of_isSampleEvent hi
    cases h
    rw [htt]
    exact entryNext_ref_ne_illegal s.automaton x

theorem execAll_legal {is : List Instr} {s t : State} (htt : s.tt = tableRef) (ha : s.automaton ≠ .illegal)
    (h : execAll is s = .next t) : t.automaton ≠ .illegal :=
  (execAll_induction (P := fun u => u.tt = tableRef ∧ u.automaton ≠ .illegal)
    (fun ⟨htt, ha⟩ he => ⟨(exec_next_cfg he).2.1.trans htt, exec_legal htt ha he⟩) ⟨htt, ha⟩ h).2

/-- Settles O33: no cell of the grid leads to ILLEGAL. -/
theorem illegalIsUnreachableUnderTheReferenceTable : Obligations.IllegalIsUnreachableUnderTheReferenceTable := by
  refine ⟨fun a x hcode => entryNext_ref_ne_illegal a x ?_, fun c => resetOf_automaton c tableRef,
    fun s is htt ha => ?_⟩
  · rw [entryNext, hcode]
    rfl
  · obtain ⟨t, ht⟩ := execAll_next is s
    exact ⟨t, ht, execAll_legal htt ha ht⟩

/-! ### Rest -/

theorem entryNext_ref_p11 (a : Automaton) : entryNext (ttRead tableRef a p11) = .start :=
  forall_ref (P := fun _ x n _ => x = p11 → n = .start) (by decide) a p11 rfl

/-- Only a sample 11 that goes to START emits (R67). -/
theorem ref_emits_at_rest (a : Automaton) (x : PinSample) : outcome (ttRead tableRef a x) ≠ .none →
    x = p11 ∧ entryNext (ttRead tableRef a x) = .start :=
  forall_ref (P := fun _ x n o => o ≠ .none → x = p11 ∧ n = .start) (by decide) a x

/-- Settles O32, by the column of the sample 11. -/
theorem sampleElevenResynchronizes : Obligations.SampleElevenResynchronizes := by
  intro s htt
  refine ⟨fun is => ?_, fun x => ⟨_, _, exec_sample x s, rfl, ?_⟩⟩
  · obtain ⟨u, hu⟩ := execAll_next is s
    have httu : u.tt = tableRef := (execAll_next_cfg hu).2.1.trans htt
    refine ⟨_, by rw [execAll_append, hu, andThen_next, execAll_of_next (exec_sample p11 u), execAll_nil], ?_⟩
    show entryNext (ttRead u.tt u.automaton p11) = .start
    rw [httu, entryNext_ref_p11]
  · show outcome (ttRead s.tt s.automaton x) ≠ .none → x = p11 ∧ entryNext (ttRead s.tt s.automaton x) = .start
    rw [htt]
    exact ref_emits_at_rest s.automaton x

/-- Four cells of the grid in a row, from START back to START, of which the last alone may emit. -/
theorem exec_four_samples {s : State} (htt : s.tt = tableRef) (ha : s.automaton = .start) {x1 x2 x3 x4 : PinSample}
    {a1 a2 a3 : Automaton} {o : Direction} (hcell1 : (.start, x1, a1, .none) ∈ referenceGrid)
    (hcell2 : (a1, x2, a2, .none) ∈ referenceGrid) (hcell3 : (a2, x3, a3, .none) ∈ referenceGrid)
    (hcell4 : (a3, x4, .start, o) ∈ referenceGrid) :
    ∃ t1 t2 t3 t4, exec (.sample x1) s = .next t1 ∧ exec (.sample x2) t1 = .next t2 ∧
      exec (.sample x3) t2 = .next t3 ∧ exec (.sample x4) t3 = .next t4 ∧
      t1.automaton = a1 ∧ t2.automaton = a2 ∧ t3.automaton = a3 ∧
      t4 = { s.apply o with
        automaton := .start, dirOut := dirBits o,
        results := .direction o :: .direction .none :: .direction .none :: .direction .none :: s.results } :=
  ⟨_, _, _, _, exec_sample_of_mem_grid htt ha hcell1, exec_sample_of_mem_grid htt rfl hcell2,
    exec_sample_of_mem_grid htt rfl hcell3, exec_sample_of_mem_grid htt rfl hcell4, rfl, rfl, rfl, rfl⟩

/-- Settles O31: the four cells of each detent. -/
theorem canonicalDetentsEmitOnce : Obligations.CanonicalDetentsEmitOnce := fun _ htt ha =>
  ⟨exec_four_samples htt ha (by decide) (by decide) (by decide) (by decide),
    exec_four_samples htt ha (by decide) (by decide) (by decide) (by decide)⟩

/-! ### Repeated samples -/

/-- A repeated sample emits nothing: no state that a sample leads to emits on that sample again (R69). -/
theorem ref_repeat_emits_nothing (a : Automaton) (x : PinSample) :
    outcome (ttRead tableRef (entryNext (ttRead tableRef a x)) x) = .none :=
  forall_ref (P := fun _ x n _ => outcome (ttRead tableRef n x) = .none) (by decide) a x

/-- R69's four exceptional transitions in the grid. -/
theorem ref_of_mem_repeatExceptions : ∀ g ∈ repeatExceptions,
    (g.1, g.2.1, Automaton.start, Direction.none) ∈ referenceGrid ∧
      (Automaton.start, g.2.1, g.2.2, Direction.none) ∈ referenceGrid ∧
      ∃ p ∈ pinsOfState g.1, oneBit p g.2.1 = false := by
  decide

/-- Off the four exceptions a repeated sample stays where the first one went, from every legal state (R69). -/
theorem ref_repeat_stays (a : Automaton) (x : PinSample) : a ≠ .illegal →
    (a, x) ∉ repeatExceptions.map (fun g => (g.1, g.2.1)) →
    entryNext (ttRead tableRef (entryNext (ttRead tableRef a x)) x) = entryNext (ttRead tableRef a x) :=
  forall_ref (P := fun a x n _ => a ≠ .illegal → (a, x) ∉ repeatExceptions.map (fun g => (g.1, g.2.1)) →
    entryNext (ttRead tableRef n x) = n) (by decide) a x

/-- Settles O34: the exceptions by their cells of the grid, all others by a look at the whole grid. -/
theorem repeatedSampleLeavesStateAndReturnsNoneButInFourCases :
    Obligations.RepeatedSampleLeavesStateAndReturnsNoneButInFourCases := by
  intro s x htt ha
  refine ⟨_, _, _, exec_sample_of_mem_grid htt rfl (mem_grid s.automaton x),
    exec_sample_of_mem_grid htt rfl (mem_grid _ x), rfl, by rw [ref_repeat_emits_nothing], fun b hb => ?_,
    fun hno => ?_⟩
  · obtain ⟨hcell, hagain, p, hp, hbit⟩ := ref_of_mem_repeatExceptions _ hb
    obtain ⟨hn, ho⟩ := ttRead_of_mem_grid _ hcell
    refine ⟨hn, ho, ?_, p, hp, hbit⟩
    show entryNext (ttRead tableRef (entryNext (ttRead tableRef s.automaton x)) x) = b
    rw [hn]
    exact (ttRead_of_mem_grid _ hagain).1
  · refine ref_repeat_stays s.automaton x ha fun hmem => ?_
    obtain ⟨⟨a, y, b⟩, hg, heq⟩ := List.mem_map.1 hmem
    cases heq
    exact hno b hg

end Sys2Proof.Machine

/-! Proofs of the other statements: sequences of samples under TT_REF. Perturbed and bounced detents (R70) and the
count law (R71, R108), each about the run of the decoder alone. -/

namespace Sys2Proof.Machine

open Sys2Proof

/-! ### Perturbed detents -/

/-- What the decoder emits from START under TT_REF on a sequence of samples. -/
def restEmissions (xs : List PinSample) : List Direction := emitted (decoderRun tableRef .start xs).2

theorem emissions_of_rest {s : State} (htt : s.tt = tableRef) (ha : s.automaton = .start) (xs : List PinSample) :
    emissions (samples xs) s = some (restEmissions xs) := by
  rw [emissions_samples, htt, ha, restEmissions]

/-- R70's enumeration, for both directions. -/
theorem restEmissions_perturbations :
    ((perturbations cwSamples).filter fun xs => restEmissions xs = [.cw]).length = 13 ∧
    ((perturbations cwSamples).filter fun xs => restEmissions xs = []).length = 19 ∧
    ((perturbations ccwSamples).filter fun xs => restEmissions xs = [.ccw]).length = 13 ∧
    ((perturbations ccwSamples).filter fun xs => restEmissions xs = []).length = 19 := by
  decide

theorem restEmissions_bounce : ∀ k ∈ [1, 2, 3],
    restEmissions (bounceAt k cwSamples) = [.cw] ∧ restEmissions (turnBackAt k cwSamples) = [] ∧
      restEmissions (bounceAt k ccwSamples) = [.ccw] ∧ restEmissions (turnBackAt k ccwSamples) = [] := by
  decide

/-- Settles O35: from rest a sequence emits what the decoder alone emits, and the sequences of R70 are finitely many. -/
theorem perturbedDetentEmitsOnceOrNothing : Obligations.PerturbedDetentEmitsOnceOrNothing := by
  refine ⟨rfl, rfl, fun s htt ha => ?_⟩
  simp only [emissions_of_rest htt ha, Option.some.injEq]
  obtain ⟨hcw, hcw0, hccw, hccw0⟩ := restEmissions_perturbations
  refine ⟨hcw, hcw0, hccw, hccw0, fun k hlo hhi => restEmissions_bounce k ?_⟩
  simp only [List.mem_cons, List.not_mem_nil, or_false]
  omega

/-! ### The count law -/

/-- The quarter steps that a run of samples from a state counts: four for each outcome, less the residual of the state
it starts in, plus that of the state it ends in (R71). -/
def quarterCount (a : Automaton) (xs : List PinSample) : Int :=
  4 * netCount (decoderRun tableRef a xs).2 + quarterResidual (decoderRun tableRef a xs).1 - quarterResidual a

theorem netCount_cons (d : Direction) (ds : List Direction) : netCount (d :: ds) = netCount [d] + netCount ds :=
  netCount_append [d] ds

@[simp] theorem quarterCount_nil (a : Automaton) : quarterCount a [] = 0 := by
  simp [quarterCount, decoderRun, netCount]

/-- The count of a run is that of its first sample and that of the rest. -/
theorem quarterCount_cons (a : Automaton) (x : PinSample) (xs : List PinSample) :
    quarterCount a (x :: xs) = quarterCount a [x] + quarterCount (entryNext (ttRead tableRef a x)) xs := by
  simp only [quarterCount, decoderRun_cons, netCount_cons _ (decoderRun _ _ xs).2]
  simp only [decoderRun]
  omega

/-- One sample that changes at most one bit, from a state that occurs with the pin level: the state it gives occurs
with the new pin level, and the count follows the motion (R71). -/
theorem quarterCount_one_bit {a : Automaton} {p x : PinSample} (hp : pinsOfState a = some p)
    (hx : oneBit p x = true) :
    pinsOfState (entryNext (ttRead tableRef a x)) = some x ∧ quarterCount a [x] = phaseStep p x := by
  have hcell := forall_ref (P := fun a x n o => ∀ p ∈ pinsOfState a, oneBit p x = true → pinsOfState n = some x ∧
    4 * netCount [o] + quarterResidual n - quarterResidual a = phaseStep p x) (by decide) a x
  exact hcell p hp hx

/-- The count law from any state that occurs with the pin level (R71), by induction on the samples. -/
theorem quarterCount_eq_motion {a : Automaton} {p : PinSample} {xs : List PinSample} (hp : pinsOfState a = some p)
    (hxs : follows p xs = true) :
    pinsOfState (decoderRun tableRef a xs).1 = some (pinsAfter p xs) ∧ quarterCount a xs = motion p xs := by
  induction xs generalizing a p with
  | nil => exact ⟨hp, quarterCount_nil a⟩
  | cons x xs ih =>
    obtain ⟨hx, hrest⟩ := Bool.and_eq_true_iff.1 hxs
    obtain ⟨hn, hstep⟩ := quarterCount_one_bit hp hx
    obtain ⟨hend, hcount⟩ := ih hn hrest
    exact ⟨hend, by rw [quarterCount_cons, hstep, hcount, motion]⟩

theorem pinsOfState_eq_p11 {a : Automaton} (h : pinsOfState a = some p11) : a = .start := by
  cases a with
  | start => rfl
  | _ => exact absurd h (by decide)

theorem abs_quarterResidual_lt (a : Automaton) : |quarterResidual a| < 4 := by
  cases a <;> decide

/-- What a run of samples under TT_REF returns, by the run of the decoder. -/
theorem execAll_samples_ref {s : State} (htt : s.tt = tableRef) (xs : List PinSample) : ∃ t new,
    execAll (samples xs) s = .next t ∧ t.results = new ++ s.results ∧
      t.automaton = (decoderRun tableRef s.automaton xs).1 ∧
      netCount (outcomesOf new) = netCount (decoderRun tableRef s.automaton xs).2 := by
  obtain ⟨d, hd⟩ := execAll_samples s xs
  rw [← htt]
  refine ⟨_, _, hd, rfl, rfl, ?_⟩
  rw [← List.map_reverse, outcomesOf_map_direction, netCount_reverse]

/-- Settles O36: the count law from START, whose residual is 0 and whose pin level is 11. -/
theorem countLawForOneBitSequences : Obligations.CountLawForOneBitSequences := by
  intro s xs htt ha hxs
  obtain ⟨t, new, ht, hnew, hauto, hnet⟩ := execAll_samples_ref htt xs
  obtain ⟨hpins, hcount⟩ := quarterCount_eq_motion (a := .start) rfl hxs
  rw [ha] at hauto hnet
  rw [← hauto] at hpins
  have hlaw : 4 * netCount (outcomesOf new) = motion p11 xs - quarterResidual t.automaton := by
    rw [← hcount, hnet, hauto, quarterCount, quarterResidual]
    omega
  refine ⟨t, new, ht, hnew, hpins, hlaw, fun hend => ?_, ?_⟩
  · have hstart : t.automaton = .start := pinsOfState_eq_p11 (hend ▸ hpins)
    exact ⟨hstart, by rw [hlaw, hstart, quarterResidual, sub_zero]⟩
  · have hres := abs_quarterResidual_lt t.automaton
    rw [hlaw, sub_sub_cancel_left, abs_neg]
    exact hres

/-! ### Reset away from rest -/

/-- The first sample after a reset with the pins at `p`: it gives a state that occurs with the new pin level, from
where the count law holds, at most two quarter steps off; or the pins are at 00 and the state is START still, at most
one quarter step off, and none where the pins were at 00 already. -/
theorem quarterCount_first_sample {p x : PinSample} (hx : oneBit p x = true) :
    (pinsOfState (entryNext (ttRead tableRef .start x)) = some x ∧
      |quarterCount .start [x] - phaseStep p x| ≤ 2) ∨
    (x = p00 ∧ entryNext (ttRead tableRef .start x) = .start ∧
      |quarterCount .start [x] - phaseStep p x| ≤ if p = p00 then 0 else 1) := by
  obtain ⟨c, d⟩ := p
  obtain ⟨c', d'⟩ := x
  revert c d c' d'
  decide

/-- From START with the pins at 00 the count of a one-bit sequence is off by at most two quarter steps. -/
theorem abs_quarterCount_sub_motion_p00 {xs : List PinSample} (hxs : follows p00 xs = true) :
    |quarterCount .start xs - motion p00 xs| ≤ 2 := by
  induction xs with
  | nil => simp [motion]
  | cons x xs ih =>
    obtain ⟨hx, hrest⟩ := Bool.and_eq_true_iff.1 hxs
    rw [quarterCount_cons, motion]
    obtain ⟨hn, hfirst⟩ | ⟨rfl, hn, hfirst⟩ := quarterCount_first_sample hx
    · rw [(quarterCount_eq_motion hn hrest).2, add_sub_add_right_eq_sub]
      exact hfirst
    · rw [if_pos rfl] at hfirst
      have hlater := ih hrest
      rw [hn, add_sub_add_comm]
      exact (abs_add_le _ _).trans (by omega)

/-- R108: from START with the pins anywhere it is off by at most three. -/
theorem abs_quarterCount_sub_motion {p : PinSample} {xs : List PinSample} (hxs : follows p xs = true) :
    |quarterCount .start xs - motion p xs| ≤ 3 := by
  cases xs with
  | nil => simp [motion]
  | cons x xs =>
    obtain ⟨hx, hrest⟩ := Bool.and_eq_true_iff.1 hxs
    rw [quarterCount_cons, motion]
    obtain ⟨hn, hfirst⟩ | ⟨rfl, hn, hfirst⟩ := quarterCount_first_sample hx
    · rw [(quarterCount_eq_motion hn hrest).2, add_sub_add_right_eq_sub]
      exact hfirst.trans (by decide)
    · have hlater := abs_quarterCount_sub_motion_p00 hrest
      rw [hn, add_sub_add_comm]
      refine (abs_add_le _ _).trans ?_
      split at hfirst <;> omega

/-- A run of samples that ends with 11 ends in START (R67). -/
theorem decoderRun_ends_at_rest (a : Automaton) (xs : List PinSample) :
    (decoderRun tableRef a (xs ++ [p11])).1 = .start := by
  rw [decoderRun_append]
  exact entryNext_ref_p11 _

/-- Settles O37: in START, where the run begins and ends, the residual is 0, so the count is that of the outcomes. -/
theorem offRestResetErrsByLessThanOneDetent : Obligations.OffRestResetErrsByLessThanOneDetent := by
  intro s p xs htt ha _ hxs
  obtain ⟨t, new, ht, hnew, hauto, hnet⟩ := execAll_samples_ref htt (xs ++ [p11])
  rw [ha] at hauto hnet
  have hstart := decoderRun_ends_at_rest .start xs
  have hcount : quarterCount .start (xs ++ [p11]) = 4 * netCount (outcomesOf new) := by
    rw [quarterCount, hstart, hnet, add_sub_cancel_right]
  refine ⟨t, new, ht, hnew, hauto.trans hstart, ?_⟩
  rw [← hcount]
  exact abs_quarterCount_sub_motion hxs

end Sys2Proof.Machine

/-! Proofs of the other statements: construction. The five checks of R26 in the spec's own terms, the first of them
that fails (R101), and the parameters of a block that is built (R24, R25). -/

namespace Sys2Proof.Machine

open Sys2Proof

/-! ### The checks in the spec's terms -/

/-- INCR > 2^(W-1) - 1 over the rationals, without a division, at W = 0 too (R26, log 11). -/
theorem incr_gt_iff (w n : Nat) : (n : ℚ) > 2 ^ ((w : ℤ) - 1) - 1 ↔ 2 ^ w < 2 * (n + 1) := by
  have hhalf : (2 : ℚ) ^ ((w : ℤ) - 1) = 2 ^ w / 2 := by rw [zpow_sub_one₀ two_ne_zero, zpow_natCast, div_eq_mul_inv]
  rw [hhalf, gt_iff_lt, sub_lt_iff_lt_add, div_lt_iff₀ two_pos, mul_comm]
  exact_mod_cast Iff.rfl

theorem mem_rowEntries {r : Row} {e : Entry} : e ∈ rowEntries r ↔ ∃ x, rowRead r x = e := by
  constructor
  · intro he
    simp only [rowEntries, List.mem_cons, List.not_mem_nil, or_false] at he
    obtain rfl | rfl | rfl | rfl := he
    exacts [⟨p00, rfl⟩, ⟨p01, rfl⟩, ⟨p10, rfl⟩, ⟨p11, rfl⟩]
  · rintro ⟨⟨clk, dt⟩, rfl⟩
    cases clk <;> cases dt <;> simp [rowEntries, rowRead]

/-- The states in the order of their rows in the ROM image (R17, R34). -/
def allStates : List Automaton := [.start, .cw1, .cw2, .cw3, .ccw1, .ccw2, .ccw3, .illegal]

theorem mem_allStates (a : Automaton) : a ∈ allStates := by
  cases a <;> decide

theorem tableImage_eq_flatMap (tt : Table) : tableImage tt = allStates.flatMap fun a => rowEntries (tableRow tt a) :=
  rfl

/-- The image of a table holds the entries that reads give, and no others (R34). -/
theorem mem_tableImage {tt : Table} {e : Entry} : e ∈ tableImage tt ↔ ∃ a x, ttRead tt a x = e := by
  simp [tableImage_eq_flatMap, mem_allStates, mem_rowEntries, ttRead]

theorem tableAdmitted_eq_false {tt : Table} : tableAdmitted tt = false ↔ ∃ a x, (ttRead tt a x).getLsbD 3 = true ∨
    ((ttRead tt a x).getLsbD 4 = true ∧ (ttRead tt a x).getLsbD 5 = true) := by
  have hentry : ∀ e : Entry, entryAdmitted e = false ↔
      e.getLsbD 3 = true ∨ (e.getLsbD 4 = true ∧ e.getLsbD 5 = true) := by
    intro e
    rw [← Bool.not_eq_true, entryAdmitted_iff, not_and_or, not_not, Bool.not_eq_false]
  simp only [tableAdmitted, List.all_eq_false, mem_tableImage, Bool.not_eq_true, hentry]
  exact ⟨fun ⟨_, ⟨a, x, he⟩, hbad⟩ => ⟨a, x, he ▸ hbad⟩, fun ⟨a, x, hbad⟩ => ⟨_, ⟨a, x, rfl⟩, hbad⟩⟩

/-- Each test of the model is the check of the spec. -/
theorem checkFails_iff {c : Supplied} {r : ConfigReason} : checkFails c r = true ↔ CheckFails c r := by
  cases r with
  | minGtMax => exact checkFails_minGtMax
  | policyReserved => exact checkFails_policyReserved
  | incrRange => exact checkFails_incrRange.trans (incr_gt_iff c.w c.incr.toNat).symm
  | width => exact checkFails_width
  | ttMalformed => exact checkFails_ttMalformed.trans tableAdmitted_eq_false

/-! ### The first failing check -/

/-- What holds of the five reasons, in the order of their codes. -/
theorem forall_configReason {P : ConfigReason → Prop} :
    (∀ q, P q) ↔ P .minGtMax ∧ P .policyReserved ∧ P .incrRange ∧ P .width ∧ P .ttMalformed := by
  refine ⟨fun h => ⟨h _, h _, h _, h _, h _⟩, fun ⟨hmin, hpolicy, hincr, hwidth, htable⟩ q => ?_⟩
  cases q with
  | minGtMax => exact hmin
  | policyReserved => exact hpolicy
  | incrRange => exact hincr
  | width => exact hwidth
  | ttMalformed => exact htable

/-- The check names a reason exactly when that check fails and none before it does (R101). -/
theorem checkConfig_eq_some {c : Supplied} {r : ConfigReason} : checkConfig c = some r ↔
    checkFails c r = true ∧ ∀ q, reasonCode q < reasonCode r → checkFails c q = false := by
  rw [forall_configReason, checkConfig]
  cases r <;> split_ifs <;> simp_all [reasonCode]

theorem policyOfCode_eq_none {c : BitVec 2} : policyOfCode c = none ↔ c = 0b11#2 := by
  revert c
  decide

/-- The construction check and the building of a block refuse alike (R26): a code without a policy fails check 2. -/
theorem build_eq_error {c : Supplied} {r : ConfigReason} : build c = .error r ↔ checkConfig c = some r := by
  unfold build
  cases hc : checkConfig c with
  | some q => simp
  | none =>
    cases hp : policyOfCode c.policy with
    | some p => simp
    | none =>
      have hno := checkConfig_none.1 hc .policyReserved
      have hyes := checkFails_policyReserved.2 (policyOfCode_eq_none.1 hp)
      rw [hno] at hyes
      cases hyes

/-- The configuration of a block that is built with a policy from what is supplied. -/
def builtCfg (c : Supplied) (p : Policy) : Cfg :=
  { w := c.w, policy := p, min := c.min, max := c.max, incr := c.incr, reverse := c.reverse }

theorem supplied_builtCfg {c : Supplied} {p : Policy} (hp : policyCode p = c.policy) :
    supplied (builtCfg c p) c.tt = c :=
  congrArg (fun k => { c with policy := k }) hp

theorem build_eq_ok {c : Supplied} {b : Cfg} {tt : Table} (h : build c = .ok (b, tt)) :
    checkConfig c = none ∧ ∃ p, policyOfCode c.policy = some p ∧ b = builtCfg c p ∧ tt = c.tt := by
  unfold build at h
  split at h
  · cases h
  · cases h
  · cases h
    exact ⟨‹_›, _, ‹_›, rfl, rfl⟩

theorem exists_build_eq_ok {c : Supplied} : (∃ b, build c = .ok b) ↔ checkConfig c = none := by
  constructor
  · rintro ⟨⟨b, tt⟩, hb⟩
    exact (build_eq_ok hb).1
  · intro hc
    cases hb : build c with
    | ok b => exact ⟨b, rfl⟩
    | error r =>
      rw [build_eq_error.1 hb] at hc
      cases hc

theorem step_of_checkBuilt {s : State} {r : ConfigReason} (h : checkBuilt s.cfg s.tt = some r) :
    step s = .refused (.config r) := by
  unfold step
  rw [h]

/-- Settles O8: the model's tests are the spec's checks, in the spec's order. -/
theorem constructionReportsTheFirstFailingCheck : Obligations.ConstructionReportsTheFirstFailingCheck := by
  refine ⟨fun c r => ?_, fun c => ?_, fun s r h => step_of_checkBuilt (build_eq_error.1 h)⟩
  · simp only [build_eq_error, checkConfig_eq_some, ← checkFails_iff, Bool.not_eq_true]
  · simp only [exists_build_eq_ok, checkConfig_none, ← checkFails_iff, Bool.not_eq_true]

/-! ### A built block -/

theorem policyCode_of_policyOfCode {c : BitVec 2} {p : Policy} (h : policyOfCode c = some p) : policyCode p = c := by
  have hall : ∀ c : BitVec 2, ∀ p ∈ policyOfCode c, policyCode p = c := by decide
  exact hall c p h

/-- Settles O9: POLICY is the policy of the supplied code, whose code it is again, and the rest is copied. -/
theorem builtBlockHasTheSuppliedParameters : Obligations.BuiltBlockHasTheSuppliedParameters := by
  intro c b tt h
  obtain ⟨hcheck, p, hp, rfl, rfl⟩ := build_eq_ok h
  have hsame : supplied (builtCfg c p) c.tt = c := supplied_builtCfg (policyCode_of_policyOfCode hp)
  have hpolicy : ∀ q, policyOfCode c.policy = some q → p = q := fun q hq => Option.some.inj (hp.symm.trans hq)
  refine ⟨hsame, (congrArg checkConfig hsame).trans hcheck, fun h0 => ?_, fun h1 => ?_, fun h2 => ?_⟩
  · exact hpolicy _ (by rw [h0]; rfl)
  · exact hpolicy _ (by rw [h1]; rfl)
  · exact hpolicy _ (by rw [h2]; rfl)

end Sys2Proof.Machine

/-! Proofs of the other statements: the step. The reset cycle (R107) and the refusals (R26, R32), what one cycle
performs (R42, R115), the DIR_OUT pulse (R20, R113), and the invariant. -/

namespace Sys2Proof.Machine

open Sys2Proof

/-! ### What one step performs -/

theorem dropInput_of_inputs {s : State} {inp : Input s.cfg.w} {rest : List (Input s.cfg.w)}
    (hin : s.inputs = inp :: rest) : s.dropInput = { s with inputs := rest } := by
  rw [State.dropInput, hin, List.tail_cons]

theorem step_cons {s : State} {inp : Input s.cfg.w} {rest : List (Input s.cfg.w)} (h : ValidConfig s.cfg s.tt)
    (hin : s.inputs = inp :: rest) : step s = runInput inp { s with inputs := rest } := by
  rw [step_of_valid h, hin, ← dropInput_of_inputs hin]

/-- A cycle with `rst` performs the reset alone, launched or not (R47). -/
theorem runInput_rst {w : Nat} {p : Ports w} (hr : p.rst = true) (s : State) :
    runInput (.ports p) s = .next s.hardwareReset := by
  simp [runInput, Input.hasEvent, clockCycle, hr]

/-- Settles O11: the reset of the step's input writes the values of the launch state. -/
theorem hardwareResetCycleGivesTheResetState : Obligations.HardwareResetCycleGivesTheResetState := by
  intro s p rest h hin hr
  refine ⟨BitVec.ofInt s.cfg.w (resetValue s.cfg), ?_, toInt_resetValue s.cfg, rfl⟩
  rw [step_cons h hin, runInput_rst hr]
  rfl

theorem runInput_before_reset {w : Nat} {inp : Input w} {s : State} (hl : s.launched = false)
    (he : inp.hasEvent = true) : runInput inp s = .refused .beforeReset := by
  simp [runInput, hl, he]

/-- Settles O12: the launch flag is looked at before the input is performed. -/
theorem eventBeforeResetIsRefused : Obligations.EventBeforeResetIsRefused := by
  intro s inp rest h hl hin he
  rw [step_cons h hin]
  exact runInput_before_reset hl he

theorem runInput_event_of_launched {w : Nat} (e : EventWord w) {s : State} (hl : s.launched = true) :
    runInput (.event e) s = eventCycle e s := by
  simp [runInput, hl]

theorem performWord_of_decode {w : Nat} {e : EventWord w} {i : Instr} (hd : decode e = .ok i) (s : State) :
    performWord e s = exec i s := by
  rw [performWord, hd]

/-- A launched block of a valid configuration performs the event word presented next. -/
theorem step_event {s : State} {e : EventWord s.cfg.w} {rest : List (Input s.cfg.w)} (h : ValidConfig s.cfg s.tt)
    (hl : s.launched = true) (hin : s.inputs = .event e :: rest) : step s = eventCycle e { s with inputs := rest } :=
  (step_cons h hin).trans (runInput_event_of_launched e hl)

/-- Settles O13: the word's event, and the end of the cycle by whether it was a SAMPLE. -/
theorem stepRunsTheDecodedEvent : Obligations.StepRunsTheDecodedEvent := by
  intro s e rest i h hl hin hd
  rw [step_event h hl hin, eventCycle, performWord_of_decode hd, isSample_of_decode hd]
  rfl

/-- The cycle of the ports: host command, then SAMPLE, then the end of a cycle without one (R42). -/
theorem clockCycle_of_not_rst {w : Nat} {p : Ports w} (hr : p.rst = false) (s : State) : clockCycle p s =
    andThen (if p.cmdValid then exec (portCommand p.cmd p.wdata) s else .next s) (fun s1 =>
      if p.smpValid then exec (.sample ⟨p.smp.getLsbD 1, p.smp.getLsbD 0⟩) s1
      else .next { s1 with dirOut := 0b00#2 }) := by
  have hhost : performPort p.hostWord s = if p.cmdValid then exec (portCommand p.cmd p.wdata) s else .next s := by
    cases hv : p.cmdValid with
    | false => exact performPort_hostWord_of_not_valid hv s
    | true => exact performPort_hostWord_of_valid hv s
  have hsample : (fun s1 => andThen (performPort p.sampleWord s1) fun s2 => .next (s2.endCycle p.smpValid)) =
      fun s1 => if p.smpValid then exec (.sample ⟨p.smp.getLsbD 1, p.smp.getLsbD 0⟩) s1
        else .next { s1 with dirOut := 0b00#2 } := by
    funext s1
    cases hv : p.smpValid with
    | false => rw [performPort_sampleWord_of_not_valid hv]; rfl
    | true => rw [performPort_sampleWord_of_valid hv, exec_sample]; rfl
  rw [clockCycle, hr, if_neg Bool.false_ne_true, hhost, hsample]

/-- Settles O14: the cycle of the ports from the state whose next input was taken away. -/
theorem cyclePerformsTheHostCommandThenTheSample : Obligations.CyclePerformsTheHostCommandThenTheSample := by
  intro s p rest h hl hin hr
  rw [step_ports h hl hin, clockCycle_of_not_rst hr, dropInput_of_inputs hin]

/-! ### Refusals -/

/-- A cycle of an event word refuses only a word that is no event: an event completes. -/
theorem eventCycle_refused {w : Nat} {e : EventWord w} {s : State} {r : Refusal}
    (h : eventCycle e s = .refused r) : ∃ d, r = .malformedEvent d ∧ decode e = .error d := by
  cases hd : decode e with
  | ok i =>
    obtain ⟨t, ht⟩ := eventCycle_next hd s
    rw [ht] at h
    cases h
  | error d =>
    rw [eventCycle, performWord, hd] at h
    cases h
    exact ⟨d, rfl, rfl⟩

theorem runInput_refused {w : Nat} {inp : Input w} {s : State} {r : Refusal} (h : runInput inp s = .refused r) :
    (r = .beforeReset ∧ s.launched = false ∧ inp.hasEvent = true) ∨
      ∃ d e, r = .malformedEvent d ∧ inp = .event e ∧ decode e = .error d := by
  unfold runInput at h
  split at h
  next hb =>
    cases h
    exact .inl ⟨rfl, by simpa using hb⟩
  next =>
    cases inp with
    | event e =>
      obtain ⟨d, hr, hd⟩ := eventCycle_refused h
      exact .inr ⟨d, e, hr, rfl, hd⟩
    | ports p =>
      obtain ⟨t, ht⟩ := clockCycle_next p s
      cases ht.symm.trans h

/-- Settles O19, by what the step looks at: the configuration, the launch flag, the event word. -/
theorem stepRefusesOnlyWhatTheSpecRefuses : Obligations.StepRefusesOnlyWhatTheSpecRefuses := by
  intro s r h
  by_cases hv : ValidConfig s.cfg s.tt
  · cases hin : s.inputs with
    | nil =>
      rw [step_of_valid hv, hin] at h
      cases h
    | cons inp rest =>
      rw [step_cons hv hin] at h
      obtain ⟨hr, hl, he⟩ | ⟨d, e, hr, rfl, hd⟩ := runInput_refused h
      · exact .inr (.inl ⟨hr, hl, inp, rest, rfl, he⟩)
      · exact .inr (.inr ⟨d, e, rest, hr, rfl, hd⟩)
  · obtain ⟨q, hq⟩ := Option.ne_none_iff_exists'.1 hv
    rw [step, hq] at h
    cases h
    exact .inl ⟨q, rfl, build_eq_error.2 hq⟩

/-! ### The DIR_OUT pulse -/

/-- A code is SAMPLE's with the pin levels in its low bits, or not a SAMPLE's, by its two high bits (R48, R51). -/
theorem decodeCode_by_high_bits (c : EventCode) : if c.getLsbD 3 = false ∧ c.getLsbD 2 = false then
      decodeCode c = some (.sample ⟨c.getLsbD 1, c.getLsbD 0⟩)
    else ∀ i ∈ decodeCode c, isSampleEvent i = false := by
  revert c
  decide

theorem decode_by_high_bits {w : Nat} {e : EventWord w} {i : Instr} (hd : decode e = .ok i) :
    if e.code.getLsbD 3 = false ∧ e.code.getLsbD 2 = false then i = .sample ⟨e.code.getLsbD 1, e.code.getLsbD 0⟩
    else isSampleEvent i = false := by
  have hcode := decodeCode_by_high_bits e.code
  obtain ⟨-, hi⟩ | ⟨v, hset, -, rfl⟩ := decode_eq_ok.1 hd
  · split at hcode
    · rw [if_pos ‹_›]
      simpa [hi] using hcode
    · rw [if_neg ‹_›]
      exact hcode i hi
  · rw [hset]
    rfl

/-- At the end of the cycle of an event DIR_OUT holds the outcome of a SAMPLE, and 0b00 after any other event. -/
theorem endCycle_dirOut_of_exec {i : Instr} {s t : State} (h : exec i s = .next t) :
    (∀ x, i = .sample x → (t.endCycle (isSampleEvent i)).dirOut = dirBits (outcome (ttRead s.tt s.automaton x))) ∧
      (isSampleEvent i = false → (t.endCycle (isSampleEvent i)).dirOut = 0b00#2) := by
  constructor
  · rintro x rfl
    cases h
    rfl
  · intro hi
    rw [hi]
    rfl

/-- No command of the host port is a SAMPLE (R53). -/
theorem isSampleEvent_portCommand {w : Nat} (cmd : BitVec 3) (v : Word w) :
    isSampleEvent (portCommand cmd v) = false := by
  obtain rfl | rfl | rfl | rfl | rfl | rfl | rfl | rfl := bitVec3_cases cmd <;> rfl

/-- The host port leaves STATE and TT, which the SAMPLE of the same cycle reads (R42). -/
theorem performPort_hostWord_decoder {w : Nat} {p : Ports w} {s t : State}
    (h : performPort p.hostWord s = .next t) : t.automaton = s.automaton ∧ t.tt = s.tt := by
  refine ⟨?_, (performPort_sameParameters h).2⟩
  cases hv : p.cmdValid with
  | false =>
    rw [performPort_hostWord_of_not_valid hv] at h
    cases h
    rfl
  | true =>
    rw [performPort_hostWord_of_valid hv] at h
    exact exec_automaton_of_not_sample h (isSampleEvent_portCommand p.cmd p.wdata)

/-- Settles O16, by the cases of what a step can do. -/
theorem dirOutIsAPulseOfOneCycle : Obligations.DirOutIsAPulseOfOneCycle := by
  intro s t h
  refine ⟨rfl, ?_⟩
  obtain ⟨-, ⟨hin, rfl⟩ | ⟨e, rest, i, u, hin, -, hd, hexec, rfl⟩ | ⟨p, rest, hin, hr, rfl⟩ |
    ⟨p, rest, u, v, hin, hr, -, hhost, hsample, rfl⟩⟩ := step_next_cases h
  · rw [hin]
    rfl
  · rw [hin]
    obtain ⟨hsmp, hother⟩ := endCycle_dirOut_of_exec hexec
    have hcode := decode_by_high_bits hd
    show (u.endCycle (isSampleEvent i)).dirOut = _
    split at hcode
    · rw [if_pos ‹_›]
      exact hsmp _ hcode
    · rw [if_neg ‹_›]
      exact hother hcode
  · rw [hin]
    show dirBits .none = _
    rw [if_neg (by simp [hr])]
    rfl
  · rw [hin]
    show (v.endCycle p.smpValid).dirOut = _
    obtain ⟨ha, htt⟩ := performPort_hostWord_decoder hhost
    cases hv : p.smpValid with
    | false =>
      rw [if_neg (by simp)]
      rfl
    | true =>
      rw [performPort_sampleWord_of_valid hv] at hsample
      rw [if_pos ⟨hr, rfl⟩]
      cases hsample
      show dirBits (outcome (ttRead u.tt u.automaton _)) = _
      rw [ha, htt]
      rfl

/-! ### The invariant -/

theorem dirBits_ne_both (o : Direction) : dirBits o ≠ 0b11#2 := by
  cases o <;> decide

/-- DIR_OUT holds 0b11 after no event (R20): SAMPLE writes one of the three encodings, the others write nothing. -/
theorem exec_dirOut_ne_both {i : Instr} {s t : State} (hs : s.dirOut ≠ 0b11#2) (h : exec i s = .next t) :
    t.dirOut ≠ 0b11#2 := by
  cases hi : isSampleEvent i with
  | false => rwa [exec_dirOut_of_not_sample h hi]
  | true =>
    obtain ⟨x, rfl⟩ := eq_sample_of_isSampleEvent hi
    cases h
    exact dirBits_ne_both _

/-- Every event keeps the invariant, clause by clause. -/
theorem exec_inv {i : Instr} {s t : State} (h : s.Inv) (hi : exec i s = .next t) : t.Inv := by
  obtain ⟨-, htt, hlaunched⟩ := exec_next_cfg hi
  exact {
    valid := validConfig_of_exec h.valid hi
    launched := hlaunched.trans h.launched
    inRange := exec_inRange h.valid h.inRange hi
    dirOut := exec_dirOut_ne_both h.dirOut hi
    legal := fun ht => exec_legal (htt ▸ ht) (h.legal (htt ▸ ht)) hi }

theorem dropInput_inv {s : State} (h : s.Inv) : s.dropInput.Inv :=
  ⟨h.valid, h.launched, h.inRange, h.dirOut, h.legal⟩

theorem writeDirOut_inv {s : State} (h : s.Inv) (o : Direction) : (s.writeDirOut o).Inv :=
  ⟨h.valid, h.launched, h.inRange, dirBits_ne_both o, h.legal⟩

theorem endCycle_inv {s : State} (h : s.Inv) (sampled : Bool) : (s.endCycle sampled).Inv := by
  cases sampled
  · exact writeDirOut_inv h .none
  · exact h

/-- Hardware reset establishes the invariant in any state of a valid configuration (R31). -/
theorem hardwareReset_inv {s : State} (h : ValidConfig s.cfg s.tt) : s.hardwareReset.Inv :=
  ⟨h, rfl, writeValue_resetValue_inRange h, dirBits_ne_both .none, nofun⟩

theorem performPort_inv {w : Nat} {e : Option (EventWord w)} {s t : State} (h : s.Inv)
    (he : performPort e s = .next t) : t.Inv := by
  cases e with
  | none => cases he; exact h
  | some e =>
    rw [performPort, performWord] at he
    split at he
    · exact exec_inv h he
    · cases he

/-- Settles O22, by the cases of what a step can do. -/
theorem stepKeepsTheInvariant : Obligations.StepKeepsTheInvariant := by
  intro s t hs h
  obtain ⟨-, ⟨-, rfl⟩ | ⟨e, rest, i, u, -, -, -, hexec, rfl⟩ | ⟨p, rest, -, -, rfl⟩ |
    ⟨p, rest, u, v, -, -, -, hhost, hsample, rfl⟩⟩ := step_next_cases h
  · exact writeDirOut_inv hs .none
  · exact endCycle_inv (exec_inv (dropInput_inv hs) hexec) _
  · exact hardwareReset_inv (s := s.dropInput) hs.valid
  · exact endCycle_inv (performPort_inv (performPort_inv (dropInput_inv hs) hhost) hsample) _

theorem resetOf_inv {c : Cfg} {tt : Table} (h : ValidConfig c tt) : (State.resetOf c tt).Inv :=
  resetOf_writeAutomaton_inv h (a := .start) (by decide)

/-- Settles O23: the reset state of every valid configuration, `State.reset`'s among them. -/
theorem resetStateHasTheInvariant : Obligations.ResetStateHasTheInvariant :=
  ⟨resetOf_inv validConfig_default, fun _ _ => resetOf_inv⟩

end Sys2Proof.Machine

/-! Proofs of the other statements: clocked runs (R42). A run of inputs, ports or event words, performs their events in
order, and no event reads DIR_OUT or what is presented later. -/

namespace Sys2Proof.Machine

open Sys2Proof

/-! ### The events of an input -/

/-- The event that a word presents, if it is one. -/
def wordEvents {w : Nat} (e : EventWord w) : List Instr :=
  match decode e with
  | .ok i => [i]
  | .error _ => []

/-- The events that an input without reset presents, in the order of R42. -/
def inputEvents {w : Nat} : Input w → List Instr
  | .event e => wordEvents e
  | .ports p => (portWords p).flatMap wordEvents

/-- The input performs its events and nothing else: a word that is an event, or ports without reset. -/
def Input.Runs {w : Nat} : Input w → Prop
  | .event e => ∃ i, decode e = .ok i
  | .ports p => p.rst = false

theorem wordEvents_of_decode {w : Nat} {e : EventWord w} {i : Instr} (hd : decode e = .ok i) : wordEvents e = [i] := by
  rw [wordEvents, hd]

/-- Every word of the ports is an event (R53). -/
theorem decode_of_mem_portWords {w : Nat} {p : Ports w} {e : EventWord w} (he : e ∈ portWords p) :
    ∃ i, decode e = .ok i := by
  rw [portWords, List.mem_append, Option.mem_toList, Option.mem_toList] at he
  obtain hhost | hsample := he
  · obtain ⟨-, rfl⟩ := mem_hostWord.1 hhost
    exact ⟨_, decode_hostCommand p.cmd p.wdata⟩
  · obtain ⟨-, rfl⟩ := mem_sampleWord.1 hsample
    exact ⟨_, decode_sample p.smp⟩

theorem execAll_singleton (i : Instr) (s : State) : execAll [i] s = exec i s := by
  obtain ⟨t, ht⟩ := exec_next i s
  rw [execAll_of_next ht, execAll_nil, ht]

theorem performWord_eq_execAll {w : Nat} {e : EventWord w} (he : ∃ i, decode e = .ok i) (s : State) :
    performWord e s = execAll (wordEvents e) s := by
  obtain ⟨i, hd⟩ := he
  rw [performWord_of_decode hd, wordEvents_of_decode hd, execAll_singleton]

theorem performPort_eq_execAll {w : Nat} {e : Option (EventWord w)} (he : ∀ x ∈ e, ∃ i, decode x = .ok i)
    (s : State) : performPort e s = execAll (e.toList.flatMap wordEvents) s := by
  cases e with
  | none => rfl
  | some x =>
    rw [Option.toList_some, List.flatMap_singleton]
    exact performWord_eq_execAll (he x rfl) s

theorem andThen_assoc (o : Host.Outcome State Fault Refusal) (f g : State → Host.Outcome State Fault Refusal) :
    andThen (andThen o f) g = andThen o fun s => andThen (f s) g := by
  cases o <;> rfl

/-- A launched block performs the events of an input, then ends the cycle. -/
theorem runInput_eq_execAll {w : Nat} {inp : Input w} (hr : inp.Runs) {s : State} (hl : s.launched = true) :
    ∃ sampled, runInput inp s = andThen (execAll (inputEvents inp) s) fun t => .next (t.endCycle sampled) := by
  cases inp with
  | event e =>
    refine ⟨e.isSample, ?_⟩
    rw [runInput_event_of_launched e hl, eventCycle, performWord_eq_execAll hr]
    rfl
  | ports p =>
    refine ⟨p.smpValid, ?_⟩
    have hhost : ∀ x ∈ p.hostWord, ∃ i, decode x = .ok i := fun x hx =>
      decode_of_mem_portWords (List.mem_append_left _ (Option.mem_toList.2 hx))
    have hsample : ∀ x ∈ p.sampleWord, ∃ i, decode x = .ok i := fun x hx =>
      decode_of_mem_portWords (List.mem_append_right _ (Option.mem_toList.2 hx))
    have hrst : p.rst = false := hr
    rw [runInput_ports_of_launched p hl, clockCycle, hrst, if_neg Bool.false_ne_true, inputEvents, portWords,
      List.flatMap_append, execAll_append, andThen_assoc, performPort_eq_execAll hhost]
    simp only [performPort_eq_execAll hsample]

/-! ### What events do not read -/

/-- No event reads DIR_OUT (R20) or what is presented later: with another DIR_OUT and other inputs it writes the same
STATE and VALUE and returns the same. -/
theorem exec_elsewhere (i : Instr) (s : State) : ∃ (a : Automaton) (v : Word s.cfg.w) (rs : List Result),
    ∀ (d : DirBits) (q : List (Input s.cfg.w)), ∃ d', exec i { s with dirOut := d, inputs := q } =
      .next { s with automaton := a, value := v, dirOut := d', inputs := q, results := rs } := by
  cases i with
  | sample x =>
    exact ⟨entryNext (ttRead s.tt s.automaton x), applied s.cfg s.value (outcome (ttRead s.tt s.automaton x)),
      .direction (outcome (ttRead s.tt s.automaton x)) :: s.results, fun _ _ => ⟨_, exec_sample x _⟩⟩
  | read => exact ⟨s.automaton, s.value, .value s.value.toInt :: s.results, fun d _ => ⟨d, exec_read _⟩⟩
  | angle => exact ⟨s.automaton, s.value, .value s.value.toInt :: s.results, fun d _ => ⟨d, exec_angle _⟩⟩
  | state => exact ⟨s.automaton, s.value, .code s.automaton.code :: s.results, fun d _ => ⟨d, exec_state _⟩⟩
  | reset => exact ⟨s.automaton, BitVec.ofInt _ (resetValue s.cfg), s.results, fun d _ => ⟨d, exec_reset _⟩⟩
  | set v =>
    exact ⟨s.automaton, BitVec.ofInt _ (rangeNorm s.cfg (setOperand s.cfg.w v)), s.results,
      fun d _ => ⟨d, exec_set v _⟩⟩
  | nop => exact ⟨s.automaton, s.value, s.results, fun d _ => ⟨d, exec_nop _⟩⟩
  | reservedS x => exact ⟨s.automaton, s.value, s.results, fun d _ => ⟨d, exec_reservedS x _⟩⟩
  | reservedH x => exact ⟨s.automaton, s.value, s.results, fun d _ => ⟨d, exec_reservedH x _⟩⟩

/-- Nor does any sequence of events. -/
theorem execAll_elsewhere (is : List Instr) (s : State) :
    ∃ (a : Automaton) (v : Word s.cfg.w) (rs : List Result), ∀ (d : DirBits) (q : List (Input s.cfg.w)), ∃ d',
      execAll is { s with dirOut := d, inputs := q } =
        .next { s with automaton := a, value := v, dirOut := d', inputs := q, results := rs } := by
  induction is generalizing s with
  | nil => exact ⟨s.automaton, s.value, s.results, fun d q => ⟨d, rfl⟩⟩
  | cons i is ih =>
    obtain ⟨a, v, rs, hi⟩ := exec_elsewhere i s
    obtain ⟨a', v', rs', his⟩ := ih { s with automaton := a, value := v, results := rs }
    refine ⟨a', v', rs', fun d q => ?_⟩
    obtain ⟨d1, h1⟩ := hi d q
    obtain ⟨d2, h2⟩ := his d1 q
    exact ⟨d2, (execAll_of_next h1 is).trans h2⟩

/-! ### Runs -/

/-- A step on an input that is performed does what its events do, but for DIR_OUT. -/
theorem step_of_runs {s : State} {inp : Input s.cfg.w} {rest : List (Input s.cfg.w)} (hv : ValidConfig s.cfg s.tt)
    (hl : s.launched = true) (hr : inp.Runs) {a : Automaton} {v : Word s.cfg.w} {rs : List Result} {d : DirBits}
    (hevents : execAll (inputEvents inp) { s with inputs := rest } =
      .next { s with automaton := a, value := v, dirOut := d, inputs := rest, results := rs }) :
    ∃ d', step { s with inputs := inp :: rest } =
      .next { s with automaton := a, value := v, dirOut := d', inputs := rest, results := rs } := by
  obtain ⟨sampled, hrun⟩ := runInput_eq_execAll hr (s := { s with inputs := rest }) hl
  have hstep : step { s with inputs := inp :: rest } = runInput inp { s with inputs := rest } :=
    step_cons (s := { s with inputs := inp :: rest }) hv rfl
  rw [hstep, hrun, hevents, andThen_next]
  cases sampled with
  | true => exact ⟨d, rfl⟩
  | false => exact ⟨dirBits .none, rfl⟩

/-- A run of inputs ends as the sequence of their events does, but for DIR_OUT. -/
theorem stepMany_eq_execAll : ∀ (s : State) (inps : List (Input s.cfg.w)), ValidConfig s.cfg s.tt →
    s.launched = true → (∀ inp ∈ inps, inp.Runs) →
    ∃ d : DirBits, stepMany inps.length { s with inputs := inps } =
      andThen (execAll (inps.flatMap inputEvents) { s with inputs := [] }) fun t => .next { t with dirOut := d }
  | s, [], _, _, _ => ⟨s.dirOut, rfl⟩
  | s, inp :: inps, hv, hl, hr => by
    obtain ⟨a, v, rs, hfirst⟩ := execAll_elsewhere (inputEvents inp) s
    obtain ⟨d1, hrun⟩ := hfirst s.dirOut inps
    obtain ⟨d2, hseq⟩ := hfirst s.dirOut []
    obtain ⟨d3, hstep⟩ := step_of_runs hv hl (hr inp List.mem_cons_self) hrun
    obtain ⟨d4, hrest⟩ := stepMany_eq_execAll { s with automaton := a, value := v, dirOut := d3, results := rs } inps
      hv hl fun x hx => hr x (List.mem_cons_of_mem inp hx)
    obtain ⟨a', v', rs', hlater⟩ := execAll_elsewhere (inps.flatMap inputEvents)
      { s with automaton := a, value := v, results := rs }
    obtain ⟨d5, hrest'⟩ := hlater d3 []
    obtain ⟨d6, hseq'⟩ := hlater d2 []
    refine ⟨d4, ?_⟩
    have hall : execAll ((inp :: inps).flatMap inputEvents) { s with inputs := [] } =
        .next { s with automaton := a', value := v', dirOut := d6, inputs := [], results := rs' } := by
      rw [List.flatMap_cons, execAll_append, hseq]
      exact hseq'
    rw [hall, List.length_cons, stepMany, hstep]
    exact hrest.trans (by rw [hrest']; rfl)

/-- Settles O17: both runs perform the same events, so both end as that sequence of events does. -/
theorem clockedRunIsAnEventRun : Obligations.ClockedRunIsAnEventRun := by
  intro s ps hv hl hrst
  obtain ⟨d, hclocked⟩ := stepMany_eq_execAll s (ps.map .ports) hv hl (by simpa [Input.Runs] using hrst)
  obtain ⟨d', hwords⟩ := stepMany_eq_execAll s ((ps.flatMap portWords).map .event) hv hl (by
    intro inp hinp
    obtain ⟨e, he, rfl⟩ := List.mem_map.1 hinp
    obtain ⟨p, -, hp⟩ := List.mem_flatMap.1 he
    exact decode_of_mem_portWords hp)
  have hsame : ((ps.flatMap portWords).map .event).flatMap inputEvents = (ps.map .ports).flatMap inputEvents := by
    rw [List.flatMap_map, List.flatMap_map, List.flatMap_assoc]
    rfl
  obtain ⟨t, ht⟩ := execAll_next ((ps.map .ports).flatMap inputEvents) { s with inputs := [] }
  rw [List.length_map, ht, andThen_next] at hclocked
  rw [List.length_map, hsame, ht, andThen_next] at hwords
  exact ⟨_, _, hclocked, hwords, rfl⟩

end Sys2Proof.Machine

/-! Proofs of the other statements: reads (R41). READ, ANGLE and STATE return what the registers hold, which is what
the last event that wrote them left. -/

namespace Sys2Proof.Machine

open Sys2Proof

/-! ### What reads return -/

theorem readsAs_iff {s : State} {v : Int} : ReadsAs s v ↔ s.value.toInt = v := by
  constructor
  · rintro ⟨hread, -⟩
    have hstate := Host.Outcome.next.inj ((exec_read s).symm.trans hread)
    simpa using congrArg State.results hstate
  · rintro rfl
    exact ⟨exec_read s, exec_angle s⟩

theorem stateReadsAs_code (s : State) : StateReadsAs s s.automaton.code := exec_state s

/-! ### What the last write leaves -/

/-- A SAMPLE with an outcome leaves the moved value, normalized (R77). -/
theorem exec_sample_normalizes {u v : State} {x : PinSample} (h : ValidConfig u.cfg u.tt)
    (hv : exec (.sample x) u = .next v) (ho : outcome (ttRead u.tt u.automaton x) ≠ .none) :
    Normalizes u.cfg (u.value.toInt + delta u.cfg (outcome (ttRead u.tt u.automaton x))) v.value.toInt := by
  cases hv
  exact applied_normalizes h u.value ho

/-- A SET of an operand that fits leaves the operand, normalized (R81). -/
theorem exec_set_normalizes {u v : State} {n : Int} (h : ValidConfig u.cfg u.tt)
    (hn : WellFormed u.cfg.w (.set n) = true) (hv : exec (.set n) u = .next v) :
    Normalizes u.cfg n v.value.toInt := by
  rw [exec_set_of_fits hn] at hv
  cases hv
  show Normalizes u.cfg n (BitVec.ofInt u.cfg.w (rangeNorm u.cfg n)).toInt
  rw [toInt_writeValue_rangeNorm h]
  exact rangeNorm_normalizes h n

theorem exec_reset_value {u v : State} (hv : exec .reset u = .next v) :
    v.value.toInt = if u.cfg.policy = .unbounded then 0 else u.cfg.min.toInt := by
  cases hv
  exact toInt_resetValue u.cfg

/-- R41 for VALUE: after events that do not write it READ and ANGLE return what they would have returned before. -/
theorem readsAs_of_noValueWrite {is : List Instr} {s t : State} (h : execAll is s = .next t)
    (hw : noValueWrite is s = true) : ReadsAs t s.value.toInt :=
  readsAs_iff.2 (execAll_value_of_noValueWrite h hw)

/-- R41 for VALUE, where the last write is that of the event `i` from the state `u`. -/
theorem readsAs_after_write {s u v t : State} {i : Instr} {post : List Instr} (h : ValidConfig s.cfg s.tt)
    (hcfg : u.cfg = s.cfg) (htt : u.tt = s.tt) (hi : exec i u = .next v) (hpost : execAll post v = .next t)
    (hw : noValueWrite post v = true) :
    (i = .reset → ReadsAs t (if s.cfg.policy = .unbounded then 0 else s.cfg.min.toInt)) ∧
    (∀ n, i = .set n → WellFormed s.cfg.w i = true → ∃ y, ReadsAs t y ∧ Normalizes s.cfg n y) ∧
    (∀ x z o, i = .sample x → ReadsAs u z → o ≠ .none → outcome (ttRead s.tt u.automaton x) = o →
      ∃ y, ReadsAs t y ∧ Normalizes s.cfg (z + delta s.cfg o) y) := by
  have hread : ReadsAs t v.value.toInt := readsAs_of_noValueWrite hpost hw
  rw [← hcfg, ← htt] at h ⊢
  refine ⟨?_, ?_, ?_⟩
  · rintro rfl
    rw [← exec_reset_value hi]
    exact hread
  · rintro n rfl hn
    exact ⟨_, hread, exec_set_normalizes h hn hi⟩
  · rintro x z o rfl hz ho rfl
    rw [← readsAs_iff.1 hz]
    exact ⟨_, hread, exec_sample_normalizes h hi ho⟩

/-! ### STATE -/

theorem code_entryNext (e : Entry) : (entryNext e).code = e.extractLsb' 0 3 := code_ofCode _

/-- A sequence of events around one of them, as the state before it, the state after it, and the rest. -/
theorem execAll_around (pre : List Instr) (i : Instr) (post : List Instr) (s : State) : ∃ u v t,
    execAll pre s = .next u ∧ exec i u = .next v ∧ execAll post v = .next t ∧
      execAll (pre ++ i :: post) s = .next t := by
  obtain ⟨u, hu⟩ := execAll_next pre s
  obtain ⟨v, hv⟩ := exec_next i u
  obtain ⟨t, ht⟩ := execAll_next post v
  exact ⟨u, v, t, hu, hv, ht, by rw [execAll_append, hu, andThen_next, execAll_of_next hv, ht]⟩

/-- R41 for STATE: after events without a SAMPLE it returns the code it would have returned before. -/
theorem stateReadsAs_of_noStateWrite {is : List Instr} {s t : State} (h : execAll is s = .next t)
    (hw : noStateWrite is = true) : StateReadsAs t s.automaton.code := by
  rw [← execAll_automaton_of_noStateWrite h hw]
  exact stateReadsAs_code t

/-- Settles O21: each read returns what its register holds, which the events after the last write leave. -/
theorem readsReturnWhatTheLastWriteLeft : Obligations.ReadsReturnWhatTheLastWriteLeft := by
  refine ⟨fun s is hw => ?_, fun s pre i post h => ?_, fun s is hw => ?_, fun s pre x post hw => ?_,
    fun c tt is h => ?_⟩
  · obtain ⟨t, ht⟩ := execAll_next is s
    exact ⟨t, ht, readsAs_of_noValueWrite ht hw⟩
  · obtain ⟨u, v, t, hu, hi, hpost, ht⟩ := execAll_around pre i post s
    obtain ⟨hcfg, htt, -⟩ := execAll_next_cfg hu
    refine ⟨u, v, t, hu, hi, ht, fun hw => ?_⟩
    obtain ⟨hreset, hset, hsample⟩ := readsAs_after_write h hcfg htt hi hpost hw
    exact ⟨hreset, hset,
      fun x z hx hz hbit => hsample x z .cw hx hz (by decide) (outcome_eq_cw.2 hbit),
      fun x z hx hz hbit => hsample x z .ccw hx hz (by decide) ((outcome_eq_ccw (h.entry u.automaton x)).2 hbit)⟩
  · obtain ⟨t, ht⟩ := execAll_next is s
    exact ⟨t, ht, stateReadsAs_of_noStateWrite ht hw⟩
  · obtain ⟨u, v, t, hu, hx, hpost, ht⟩ := execAll_around pre (.sample x) post s
    refine ⟨u, t, hu, ht, ?_⟩
    have hread := stateReadsAs_of_noStateWrite hpost hw
    cases hx
    rw [← (execAll_next_cfg hu).2.1, ← code_entryNext]
    exact hread
  · obtain ⟨t, ht⟩ := execAll_next is (State.resetOf c tt)
    refine ⟨t, ht, fun hw => ?_, stateReadsAs_of_noStateWrite ht⟩
    rw [← toInt_resetValue]
    exact readsAs_of_noValueWrite ht hw

end Sys2Proof.Machine

/-! Proofs of the other statements: the accumulator over several events. Wrap composes (R88), full turns and discarded
increments under TT_REF (R65, R89), and the special configurations (R86, R91, R92, R93) and RESET (R80). -/

namespace Sys2Proof.Machine

open Sys2Proof

/-! ### RESET -/

/-- Settles O52: RESET by its equation, and the SAMPLE after it by the cell of CW_3 in the grid. -/
theorem resetWritesTheResetValueAlone : Obligations.ResetWritesTheResetValueAlone := by
  intro s h
  refine ⟨BitVec.ofInt s.cfg.w (resetValue s.cfg), exec_reset s, toInt_resetValue s.cfg, exec_reset _,
    writeValue_resetValue_inRange h, fun htt ha => ⟨_, exec_sample_of_mem_grid (o := .cw) htt ha (by decide), ?_⟩⟩
  rw [← delta_cw]
  exact applied_normalizes h _ (by decide)

/-! ### One step under Bounded -/

theorem toInt_applied_bounded {c : Cfg} {tt : Table} (h : ValidConfig c tt) (hp : c.policy = .bounded) (v : Word c.w)
    {o : Direction} (ho : o ≠ .none) :
    (applied c v o).toInt = clamp (v.toInt + delta c o) c.min.toInt c.max.toInt := by
  rw [toInt_applied h v ho, rangeNorm_bounded hp]

section forward
variable {c : Cfg} (hrev : c.reverse = false)
include hrev

theorem delta_cw_forward : delta c .cw = c.incr.toNat := by simp [delta_cw, hrev]

theorem delta_ccw_forward : delta c .ccw = -(c.incr.toNat : Int) := by simp [delta_ccw, hrev]

end forward

/-- A sum that reaches MAX gives MAX (R86). -/
theorem applied_cw_of_max_le {c : Cfg} {tt : Table} (h : ValidConfig c tt) (hp : c.policy = .bounded)
    (hrev : c.reverse = false) {v : Word c.w} (hv : c.max.toInt ≤ v.toInt + c.incr.toNat) :
    applied c v .cw = c.max := by
  apply BitVec.eq_of_toInt_eq
  have hb := h.bounds (by simp [hp])
  rw [toInt_applied_bounded h hp v (by decide), delta_cw_forward hrev, clamp]
  omega

theorem applied_ccw_of_le_min {c : Cfg} {tt : Table} (h : ValidConfig c tt) (hp : c.policy = .bounded)
    (hrev : c.reverse = false) {v : Word c.w} (hv : v.toInt - c.incr.toNat ≤ c.min.toInt) :
    applied c v .ccw = c.min := by
  apply BitVec.eq_of_toInt_eq
  have hb := h.bounds (by simp [hp])
  rw [toInt_applied_bounded h hp v (by decide), delta_ccw_forward hrev, clamp]
  omega

/-- Settles O46: `Norm` clamps the exact sum. -/
theorem sumIsExactBeforeItIsClamped : Obligations.SumIsExactBeforeItIsClamped :=
  fun _ h hp hrev _ => ⟨applied_cw_of_max_le h hp hrev, applied_ccw_of_le_min h hp hrev⟩

/-! ### INCR = 0 -/

/-- An increment of 0 leaves a VALUE in range (R91). -/
theorem applied_of_incr_zero {c : Cfg} {tt : Table} (h : ValidConfig c tt) {v : Word c.w}
    (hr : c.policy ≠ .unbounded → c.min.toInt ≤ v.toInt ∧ v.toInt ≤ c.max.toInt) (hincr : c.incr.toNat = 0)
    (o : Direction) : applied c v o = v := by
  apply BitVec.eq_of_toInt_eq
  have hdelta : delta c o = 0 := by
    have hbounds := delta_bounds c o
    omega
  rw [toInt_applied_of_inRange h v hr, hdelta, add_zero]
  exact rangeNorm_of_mem h (toInt_bounds v) hr

/-- Settles O47: APPLY leaves VALUE, and the rest of SAMPLE does not look at INCR. -/
theorem zeroIncrementLeavesValue : Obligations.ZeroIncrementLeavesValue := by
  intro s x h hr hincr
  rw [exec_sample, applied_of_incr_zero h hr hincr]

/-! ### MIN = MAX -/

theorem rangeNorm_of_min_eq_max {c : Cfg} {tt : Table} (h : ValidConfig c tt) (hp : c.policy ≠ .unbounded)
    (hone : c.min = c.max) (z : Int) : rangeNorm c z = c.min.toInt := by
  obtain ⟨hlo, hhi⟩ := rangeNorm_mem h hp z
  rw [← hone] at hhi
  exact le_antisymm hhi hlo

theorem resetValue_of_ne_unbounded {c : Cfg} (hp : c.policy ≠ .unbounded) : resetValue c = c.min.toInt := by
  cases hpol : c.policy with
  | unbounded => exact absurd hpol hp
  | wrap => simp [resetValue, hpol]
  | bounded => simp [resetValue, hpol]

theorem exec_reset_of_ne_unbounded {s : State} (hp : s.cfg.policy ≠ .unbounded) :
    exec .reset s = .next { s with value := s.cfg.min } := by
  rw [exec_reset, State.writeValue, resetValue_of_ne_unbounded hp, ofInt_toInt]

/-- With a range of one value, VALUE in range says that it is MIN. -/
theorem value_of_inRange_of_min_eq_max {s : State} (hp : s.cfg.policy ≠ .unbounded) (hone : s.cfg.min = s.cfg.max)
    (hr : s.InRange) : s.value.toInt = s.cfg.min.toInt := by
  obtain ⟨hlo, hhi⟩ := hr hp
  rw [← hone] at hhi
  exact le_antisymm hhi hlo

/-- Settles O48: each write is in range, a range of MIN alone. -/
theorem oneValueRangeHoldsMin : Obligations.OneValueRangeHoldsMin := by
  intro s h hp hone
  refine ⟨fun o ho => ?_, exec_reset_of_ne_unbounded hp, fun v => ?_, ?_, fun hvalue is => ?_⟩
  · exact value_of_inRange_of_min_eq_max (s := s.apply o) hp hone (apply_inRange_of_ne_none h ho)
  · rw [exec_set, State.writeValue, rangeNorm_of_min_eq_max h hp hone, ofInt_toInt]
  · show BitVec.ofInt s.cfg.w (resetValue s.cfg) = s.cfg.min
    rw [resetValue_of_ne_unbounded hp, ofInt_toInt]
  · have hr : s.InRange := fun _ => by rw [hvalue]; exact ⟨le_rfl, h.bounds hp⟩
    obtain ⟨t, ht⟩ := execAll_next is s
    have hcfg := (execAll_next_cfg ht).1
    refine ⟨t, ht, ?_⟩
    rw [← hcfg] at hp hone ⊢
    exact value_of_inRange_of_min_eq_max hp hone (execAll_inRange h hr ht)

/-! ### Wrap -/

section wrap
variable {c : Cfg} (hp : c.policy = .wrap)
include hp

theorem rangeNorm_congr_wrap {y z : Int} (hd : rangeSize c ∣ y - z) : rangeNorm c y = rangeNorm c z := by
  have hmod : (y - c.min.toInt) % rangeSize c = (z - c.min.toInt) % rangeSize c := by
    rw [Int.emod_eq_emod_iff_emod_sub_eq_zero, sub_sub_sub_cancel_right]
    exact Int.emod_eq_zero_of_dvd hd
  rw [rangeNorm_wrap hp, rangeNorm_wrap hp, hmod]

theorem dvd_sub_rangeNorm_wrap (z : Int) : rangeSize c ∣ z - rangeNorm c z := by
  rw [rangeNorm_wrap hp, ← sub_sub]
  exact Int.dvd_self_sub_emod

/-- R88: `Norm(Norm(a) + b) = Norm(a + b)`. -/
theorem rangeNorm_rangeNorm_add (a b : Int) : rangeNorm c (rangeNorm c a + b) = rangeNorm c (a + b) := by
  refine rangeNorm_congr_wrap hp ?_
  rw [add_sub_add_right_eq_sub, ← neg_sub, dvd_neg]
  exact dvd_sub_rangeNorm_wrap hp a

/-- After any outcomes VALUE is the start value moved by the sum of their Deltas, normalized once (R88). -/
theorem toInt_foldl_applied {tt : Table} (h : ValidConfig c tt) (ds : List Direction) {v : Word c.w}
    (hr : c.min.toInt ≤ v.toInt ∧ v.toInt ≤ c.max.toInt) :
    (ds.foldl (applied c) v).toInt = rangeNorm c (v.toInt + deltaSum c ds) := by
  have hne : c.policy ≠ .unbounded := by simp [hp]
  induction ds generalizing v with
  | nil =>
    rw [List.foldl_nil, deltaSum, add_zero]
    exact (rangeNorm_of_mem h (toInt_bounds v) fun _ => hr).symm
  | cons d ds ih =>
    have hmoved : (applied c v d).toInt = rangeNorm c (v.toInt + delta c d) :=
      toInt_applied_of_inRange h v (fun _ => hr) d
    rw [List.foldl_cons, ih (hmoved ▸ rangeNorm_mem h hne _), hmoved, rangeNorm_rangeNorm_add hp, deltaSum, add_assoc]

end wrap

theorem deltaSum_emitted (c : Cfg) (ds : List Direction) : deltaSum c (emitted ds) = deltaSum c ds := by
  induction ds with
  | nil => rfl
  | cons d ds ih =>
    cases d with
    | none => exact ih.trans (zero_add _).symm
    | cw => exact congrArg (delta c .cw + ·) ih
    | ccw => exact congrArg (delta c .ccw + ·) ih

theorem deltaSum_replicate (c : Cfg) (n : Nat) (d : Direction) :
    deltaSum c (List.replicate n d) = n * delta c d := by
  induction n with
  | zero => simp [deltaSum]
  | succ n ih =>
    rw [List.replicate_succ, deltaSum, ih]
    push_cast
    ring

/-- As many clockwise outcomes as the range has values move VALUE by a multiple of the range size, whatever REVERSE and
INCR are (R88). -/
theorem dvd_deltaSum_of_full_turn {c : Cfg} {tt : Table} (h : ValidConfig c tt) (hp : c.policy = .wrap)
    {ds : List Direction} (hds : emitted ds = List.replicate (rangeSize c).toNat .cw) :
    rangeSize c ∣ deltaSum c ds := by
  have hpos := h.rangeSize_pos (by simp [hp])
  rw [← deltaSum_emitted, hds, deltaSum_replicate, Int.toNat_of_nonneg (by omega)]
  exact Dvd.intro _ rfl

theorem foldl_applied_of_full_turn {c : Cfg} {tt : Table} (h : ValidConfig c tt) (hp : c.policy = .wrap)
    {ds : List Direction} (hds : emitted ds = List.replicate (rangeSize c).toNat .cw) {v : Word c.w}
    (hr : c.min.toInt ≤ v.toInt ∧ v.toInt ≤ c.max.toInt) : ds.foldl (applied c) v = v := by
  apply BitVec.eq_of_toInt_eq
  rw [toInt_foldl_applied hp h ds hr, rangeNorm_congr_wrap hp (z := v.toInt)]
  · exact rangeNorm_of_mem h (toInt_bounds v) fun _ => hr
  · rw [add_sub_cancel_left]
    exact dvd_deltaSum_of_full_turn h hp hds

/-- The outcomes of a run, as they stand in the record of results, and in their order. -/
theorem outcomesOf_results (ds : List Direction) : outcomesOf (ds.map .direction).reverse = ds.reverse := by
  rw [← List.map_reverse, outcomesOf_map_direction]

theorem emitted_append (ds es : List Direction) : emitted (ds ++ es) = emitted ds ++ emitted es :=
  List.filter_append ds es

theorem emitted_reverse (ds : List Direction) : emitted ds.reverse = (emitted ds).reverse := List.filter_reverse

/-- Settles O42: one normalization after all Deltas, and a full turn of them is a multiple of the range size. -/
theorem wrapNormalizationComposes : Obligations.WrapNormalizationComposes := by
  intro s h hp
  refine ⟨rangeNorm_rangeNorm_add hp, fun hr xs => ?_⟩
  have hrange := hr (by simp [hp])
  obtain ⟨d, hd⟩ := execAll_samples s xs
  refine ⟨_, _, hd, rfl, ?_, fun _ _ hcw => ?_⟩
  · rw [outcomesOf_results, deltaSum_reverse, sub_add_eq_add_sub, ← rangeNorm_wrap hp]
    exact toInt_foldl_applied hp h _ hrange
  · rw [outcomesOf_results, emitted_reverse, List.reverse_eq_iff, List.reverse_replicate] at hcw
    exact congrArg BitVec.toInt (foldl_applied_of_full_turn h hp hcw hrange)

/-- An increment larger than the range is reduced modulo the range size (R93). -/
theorem rangeNorm_add_incr_mod {c : Cfg} (hp : c.policy = .wrap) (v : Int) :
    rangeNorm c (v + c.incr.toNat) = rangeNorm c (v + c.incr.toNat % rangeSize c) := by
  refine rangeNorm_congr_wrap hp ?_
  rw [add_sub_add_left_eq_sub]
  exact Int.dvd_self_sub_emod

/-! ### Wrap over the whole signed range -/

/-- The configuration with its policy made Unbounded. -/
def unboundCfg (c : Cfg) : Cfg := { c with policy := .unbounded }

section widest
variable {c : Cfg} (hw : 1 ≤ c.w) (hp : c.policy = .wrap) (hmin : c.min.toInt = -(2 : Int) ^ (c.w - 1))
  (hmax : c.max.toInt = (2 : Int) ^ (c.w - 1) - 1)
include hw hmin hmax

theorem rangeSize_widest : rangeSize c = (2 : Int) ^ c.w := by
  rw [rangeSize, hmin, hmax, two_pow_split hw]
  ring

include hp

theorem rangeNorm_widest (z : Int) : rangeNorm c z = wrapW c.w z := by
  rw [rangeNorm_wrap hp, rangeSize_widest hw hmin hmax, hmin, wrapW]
  ring_nf

theorem rangeNorm_unbound (z : Int) : rangeNorm (unboundCfg c) z = rangeNorm c z := by
  rw [rangeNorm_widest hw hp hmin hmax]
  exact rangeNorm_unbounded (c := unboundCfg c) rfl z

/-- APPLY reads the policy through `Norm` alone. -/
theorem applied_unbound (v : Word c.w) (o : Direction) : applied (unboundCfg c) v o = applied c v o := by
  have hnorm := rangeNorm_unbound hw hp hmin hmax
  cases o with
  | none => rfl
  | cw => exact congrArg (BitVec.ofInt c.w) (hnorm _)
  | ccw => exact congrArg (BitVec.ofInt c.w) (hnorm _)

end widest

/-- Every event but RESET does under the widest Wrap what it does under Unbounded (R93). -/
theorem exec_unbound {s t : State} {i : Instr} (hw : 1 ≤ s.cfg.w) (hp : s.cfg.policy = .wrap)
    (hmin : s.cfg.min.toInt = -(2 : Int) ^ (s.cfg.w - 1)) (hmax : s.cfg.max.toInt = (2 : Int) ^ (s.cfg.w - 1) - 1)
    (hi : i ≠ .reset) (h : exec i s = .next t) :
    exec i { s with cfg := unboundCfg s.cfg } = .next { t with cfg := unboundCfg t.cfg } := by
  cases i with
  | reset => exact absurd rfl hi
  | sample x =>
    have hvalue := applied_unbound hw hp hmin hmax s.value (outcome (ttRead s.tt s.automaton x))
    cases h
    exact (exec_sample x { s with cfg := unboundCfg s.cfg }).trans
      (congrArg (fun v : Word s.cfg.w => Host.Outcome.next { s with
        cfg := unboundCfg s.cfg
        automaton := entryNext (ttRead s.tt s.automaton x)
        value := v
        dirOut := dirBits (outcome (ttRead s.tt s.automaton x))
        results := .direction (outcome (ttRead s.tt s.automaton x)) :: s.results }) hvalue)
  | set v =>
    have hvalue := rangeNorm_unbound hw hp hmin hmax (setOperand s.cfg.w v)
    cases h
    exact congrArg (fun z => Host.Outcome.next { s with
      cfg := unboundCfg s.cfg
      value := BitVec.ofInt s.cfg.w z }) hvalue
  | _ => cases h; rfl

/-- Settles O49: `Norm` is the same function under the two policies. -/
theorem widestWrapIsUnboundedButForReset : Obligations.WidestWrapIsUnboundedButForReset := by
  refine ⟨fun s h hp hmin hmax => ?_, fun c _ v _ hp => rangeNorm_add_incr_mod hp v⟩
  have hw := h.one_le_width
  exact ⟨rangeSize_widest hw hmin hmax, rangeNorm_widest hw hp hmin hmax,
    fun i t hi hexec => exec_unbound hw hp hmin hmax hi hexec, exec_reset_of_ne_unbounded (by simp [hp]), rfl⟩

/-! ### Detents under TT_REF -/

/-- The samples of `n` detents in a row. -/
def turns (n : Nat) (detent : List PinSample) : List PinSample := (List.replicate n detent).flatten

theorem detentsCw_eq (n : Nat) : detentsCw n = samples (turns n cwSamples) := by
  simp [detentsCw, repeated, samples, turns, List.map_flatten]

theorem detentsCcw_eq (n : Nat) : detentsCcw n = samples (turns n ccwSamples) := by
  simp [detentsCcw, repeated, samples, turns, List.map_flatten]

theorem turns_succ (n : Nat) (detent : List PinSample) : turns (n + 1) detent = detent ++ turns n detent := by
  rw [turns, List.replicate_succ, List.flatten_cons, turns]

/-- Any number of clockwise detents from START ends in START and emits CW as often (R65). -/
theorem decoderRun_turns_cw (n : Nat) : ∃ ds, decoderRun tableRef .start (turns n cwSamples) = (.start, ds) ∧
    emitted ds = List.replicate n .cw := by
  have hone : decoderRun tableRef .start cwSamples = (.start, [.none, .none, .none, .cw]) := by decide
  induction n with
  | zero => exact ⟨[], rfl, rfl⟩
  | succ n ih =>
    obtain ⟨ds, hrun, hout⟩ := ih
    refine ⟨[.none, .none, .none, .cw] ++ ds, by rw [turns_succ, decoderRun_append, hone, hrun], ?_⟩
    rw [List.replicate_succ, ← hout]
    rfl

/-- SAMPLE events by the run of the decoder, where that is known. -/
theorem execAll_samples_of_run {s : State} {xs : List PinSample} {a : Automaton} {ds : List Direction}
    (hrun : decoderRun s.tt s.automaton xs = (a, ds)) : ∃ d : DirBits, execAll (samples xs) s = .next { s with
      automaton := a
      value := ds.foldl (applied s.cfg) s.value
      dirOut := d
      results := (ds.map .direction).reverse ++ s.results } := by
  obtain ⟨d, hd⟩ := execAll_samples s xs
  rw [hrun] at hd
  exact ⟨d, hd⟩

/-- Settles O43: the outcomes of the detents are a full turn. -/
theorem fullTurnOfDetentsReturnsTheValue : Obligations.FullTurnOfDetentsReturnsTheValue := by
  intro s h hp htt ha hr _
  obtain ⟨ds, hrun, hout⟩ := decoderRun_turns_cw (rangeSize s.cfg).toNat
  rw [← htt, ← ha] at hrun
  obtain ⟨d, hd⟩ := execAll_samples_of_run hrun
  rw [foldl_applied_of_full_turn h hp hout (hr (by simp [hp]))] at hd
  refine ⟨_, d, by rw [detentsCw_eq, hd], ?_⟩
  rw [outcomesOf_append, outcomesOf_results, emitted_append, emitted_reverse, hout, List.reverse_replicate]

/-- None moves nothing, so the outcomes that are emitted decide VALUE. -/
theorem foldl_applied_emitted (c : Cfg) (ds : List Direction) (v : Word c.w) :
    (emitted ds).foldl (applied c) v = ds.foldl (applied c) v := by
  induction ds generalizing v with
  | nil => rfl
  | cons d ds ih =>
    cases d with
    | none => exact ih v
    | cw => exact ih _
    | ccw => exact ih _

/-- At MAX clockwise outcomes are discarded, however many (R89). -/
theorem foldl_applied_cw_at_max {c : Cfg} {tt : Table} (h : ValidConfig c tt) (hp : c.policy = .bounded)
    (hrev : c.reverse = false) (n : Nat) : (List.replicate n .cw).foldl (applied c) c.max = c.max := by
  have hfix : applied c c.max .cw = c.max := applied_cw_of_max_le h hp hrev (by omega)
  induction n with
  | zero => rfl
  | succ n ih => rw [List.replicate_succ, List.foldl_cons, hfix, ih]

/-- Settles O44: the clockwise outcomes stay at MAX, the counter-clockwise one is clamped at MIN. -/
theorem discardedIncrementsAreLost : Obligations.DiscardedIncrementsAreLost := by
  intro s n h hp hrev htt ha hv
  obtain ⟨ds, hrun, hout⟩ := decoderRun_turns_cw n
  have hccw : decoderRun tableRef .start ccwSamples = (.start, [.none, .none, .none, .ccw]) := by decide
  have hall : decoderRun s.tt s.automaton (turns n cwSamples ++ ccwSamples) =
      (.start, ds ++ [.none, .none, .none, .ccw]) := by
    rw [htt, ha, decoderRun_append, hrun, hccw]
  have hevents : detentsCw n ++ detentsCcw 1 = samples (turns n cwSamples ++ ccwSamples) := by
    rw [detentsCw_eq, detentsCcw_eq, samples, samples, samples, List.map_append]
    rfl
  obtain ⟨d, hd⟩ := execAll_samples_of_run hall
  refine ⟨_, by rw [hevents, hd], ?_⟩
  have hmax : ds.foldl (applied s.cfg) s.value = s.cfg.max := by
    rw [← foldl_applied_emitted, hout, hv, foldl_applied_cw_at_max h hp hrev]
  have hvalue : (ds ++ [Direction.none, .none, .none, .ccw]).foldl (applied s.cfg) s.value =
      applied s.cfg s.cfg.max .ccw := by
    rw [List.foldl_append, hmax]
    rfl
  have hb := h.bounds (by simp [hp])
  refine (congrArg BitVec.toInt hvalue).trans ?_
  rw [toInt_applied_bounded h hp _ (by decide), delta_ccw_forward hrev, clamp]
  omega

end Sys2Proof.Machine

/-! Proofs of the other statements: the assembler (R56, R57). A line is its words; a comment after it leaves them as
they are and a mark before it puts one more in front. -/

namespace Sys2Proof.Machine

open Sys2Proof

/-! ### Words of a line -/

theorem splitWords_of_no_blank {cs : List Char} (hcs : ' ' ∉ cs) (cur : List Char) (hne : cur.reverse ++ cs ≠ []) :
    splitWords cur cs = [cur.reverse ++ cs] := by
  induction cs generalizing cur with
  | nil =>
    rw [List.append_nil] at hne ⊢
    rw [splitWords, if_neg (by simpa using hne)]
  | cons c cs ih =>
    obtain ⟨hc, hrest⟩ : ' ' ≠ c ∧ ' ' ∉ cs := by simpa using hcs
    rw [splitWords, if_neg (Ne.symm hc), ih hrest (c :: cur) (by simp)]
    simp

/-- A word ends at the blank after it. -/
theorem splitWords_word_blank {word : List Char} (hword : ' ' ∉ word) (cur : List Char)
    (hne : cur.reverse ++ word ≠ []) (cs : List Char) :
    splitWords cur (word ++ ' ' :: cs) = (cur.reverse ++ word) :: splitWords [] cs := by
  induction word generalizing cur with
  | nil =>
    rw [List.append_nil] at hne ⊢
    rw [List.nil_append, splitWords, if_pos rfl, if_neg (by simpa using hne)]
  | cons c word ih =>
    obtain ⟨hc, hrest⟩ : ' ' ≠ c ∧ ' ' ∉ word := by simpa using hword
    rw [List.cons_append, splitWords, if_neg (Ne.symm hc), ih hrest (c :: cur) (by simp)]
    simp

/-- A blank at the end of a line adds no word. -/
theorem splitWords_append_blank (cs cur : List Char) : splitWords cur (cs ++ [' ']) = splitWords cur cs := by
  induction cs generalizing cur with
  | nil => simp [splitWords]
  | cons c cs ih =>
    rw [List.cons_append, splitWords, splitWords, ih, ih]

/-! ### Marks and comments -/

/-- The first word of an agent's mark. -/
def markWord : Agent → List Char
  | .host => ['H', ':']
  | .sampleSource => ['S', ':']

/-- The words of a line that has neither a mark nor a comment, and the agent of its events. -/
structure PlainLine (w : Nat) (l : List Char) (is : List Instr) (g : Agent) : Prop where
  noComment : ';' ∉ l
  noMark : ∀ h, (splitWords [] l).head? ≠ some (markWord h)
  events : eventsOfWords w (splitWords [] l) = some is
  agent : ∀ i ∈ is, agentOf i = g

/-- A line without a mark is the events of its words. -/
theorem assembleLine_of_no_mark {w : Nat} {line : List Char} {ws : List (List Char)}
    (hws : splitWords [] (line.takeWhile (· ≠ ';')) = ws) (hmark : ∀ h, ws.head? ≠ some (markWord h)) :
    assembleLine w line = eventsOfWords w ws := by
  unfold assembleLine
  rw [hws]
  split
  next hh => exact absurd rfl (hmark .host)
  next hh => exact absurd rfl (hmark .sampleSource)
  next => rfl

/-- A line with an agent's mark is its events where they are that agent's. -/
theorem assembleLine_of_mark {w : Nat} {line : List Char} {ws : List (List Char)} {h : Agent}
    (hws : splitWords [] (line.takeWhile (· ≠ ';')) = markWord h :: ws) :
    assembleLine w line = (eventsOfWords w ws).filter fun is => is.all fun i => agentOf i = h := by
  unfold assembleLine
  rw [hws]
  cases h <;> rfl

theorem takeWhile_of_no_comment {l : List Char} (hl : ';' ∉ l) : l.takeWhile (· ≠ ';') = l := by
  rw [List.takeWhile_eq_self_iff]
  intro c hc
  simpa using fun h : c = ';' => hl (h ▸ hc)

theorem takeWhile_of_comment {l : List Char} (hl : ';' ∉ l) (comment : List Char) :
    (l ++ [' ', ';'] ++ comment).takeWhile (· ≠ ';') = l ++ [' '] := by
  have hblank : ';' ∉ l ++ [' '] := by simpa using hl
  have hsplit : l ++ [' ', ';'] ++ comment = (l ++ [' ']) ++ ';' :: comment := by simp
  rw [hsplit, List.takeWhile_append_of_pos fun c hc => by simpa using fun h : c = ';' => hblank (h ▸ hc)]
  simp

theorem splitWords_mark (h : Agent) (l : List Char) :
    splitWords [] (agentMark h ++ l) = markWord h :: splitWords [] l := by
  have hword : ' ' ∉ markWord h ∧ markWord h ≠ [] := by cases h <;> decide
  have hmark : agentMark h ++ l = markWord h ++ ' ' :: l := by cases h <;> rfl
  rw [hmark]
  exact splitWords_word_blank hword.1 [] hword.2 l

section plain
variable {w : Nat} {l : List Char} {is : List Instr} {g : Agent} (hl : PlainLine w l is g)
include hl

theorem PlainLine.alone : assembleLine w l = some is := by
  rw [assembleLine_of_no_mark (by rw [takeWhile_of_no_comment hl.noComment]) hl.noMark, hl.events]

theorem PlainLine.commented (comment : List Char) : assembleLine w (l ++ [' ', ';'] ++ comment) = some is := by
  have hws : splitWords [] ((l ++ [' ', ';'] ++ comment).takeWhile (· ≠ ';')) = splitWords [] l := by
    rw [takeWhile_of_comment hl.noComment, splitWords_append_blank]
  rw [assembleLine_of_no_mark hws hl.noMark, hl.events]

theorem PlainLine.marked (h : Agent) :
    assembleLine w (agentMark h ++ l) = (some is).filter fun is => is.all fun i => agentOf i = h := by
  have hno : ';' ∉ agentMark h ++ l := by
    rw [List.mem_append, not_or]
    exact ⟨by cases h <;> decide, hl.noComment⟩
  rw [assembleLine_of_mark (by rw [takeWhile_of_no_comment hno, splitWords_mark]), hl.events]

theorem PlainLine.marked_own : assembleLine w (agentMark g ++ l) = some is := by
  rw [hl.marked, Option.filter_some, if_pos (by simpa using hl.agent)]

theorem PlainLine.marked_other {h : Agent} (hne : h ≠ g) (his : is ≠ []) :
    assembleLine w (agentMark h ++ l) = none := by
  obtain ⟨i, hi⟩ := List.exists_mem_of_ne_nil is his
  have hbad : ¬ (is.all fun i => agentOf i = h) = true := by
    intro hall
    have hown : agentOf i = h := by simpa using List.all_eq_true.1 hall i hi
    exact hne (hown.symm.trans (hl.agent i hi))
  rw [hl.marked, Option.filter_some, if_neg hbad]

end plain

/-! ### Plain words -/

/-- A character that is no blank, begins no comment and ends no mark. -/
def plainChar (c : Char) : Bool := c != ' ' && c != ';' && c != ':'

theorem not_mem_of_plain {m : List Char} (hm : m.all plainChar = true) : ' ' ∉ m ∧ ';' ∉ m ∧ ':' ∉ m := by
  have hplain := List.all_eq_true.1 hm
  exact ⟨fun h => absurd (hplain _ h) (by decide), fun h => absurd (hplain _ h) (by decide),
    fun h => absurd (hplain _ h) (by decide)⟩

theorem ne_markWord_of_plain {m : List Char} (hm : m.all plainChar = true) (h : Agent) : m ≠ markWord h := by
  rintro rfl
  exact (not_mem_of_plain hm).2.2 (by cases h <;> decide)

/-- A line of one plain word. -/
theorem plainLine_one {w : Nat} {m : List Char} {is : List Instr} {g : Agent} (hm : m.all plainChar = true)
    (hne : m ≠ []) (hev : eventsOfWords w [m] = some is) (hag : ∀ i ∈ is, agentOf i = g) : PlainLine w m is g := by
  obtain ⟨hblank, hcomment, -⟩ := not_mem_of_plain hm
  have hws : splitWords [] m = [m] := splitWords_of_no_blank hblank [] hne
  exact ⟨hcomment, fun h => by simpa [hws] using ne_markWord_of_plain hm h, hws ▸ hev, hag⟩

theorem no_comment_two {m a : List Char} (hm : m.all plainChar = true) (ha : a.all plainChar = true) :
    ';' ∉ m ++ ' ' :: a := by
  simp [(not_mem_of_plain hm).2.1, (not_mem_of_plain ha).2.1]

section two
variable {w : Nat} {m a : List Char} (hm : m.all plainChar = true) (hmne : m ≠ []) (ha : a.all plainChar = true)
  (hane : a ≠ [])
include hm hmne ha hane

theorem splitWords_two : splitWords [] (m ++ ' ' :: a) = [m, a] := by
  rw [splitWords_word_blank (not_mem_of_plain hm).1 [] hmne, splitWords_of_no_blank (not_mem_of_plain ha).1 [] hane]
  rfl

/-- A line of two plain words is the events of the two. -/
theorem assembleLine_two : assembleLine w (m ++ ' ' :: a) = eventsOfWords w [m, a] := by
  refine assembleLine_of_no_mark ?_ fun h => by simpa using ne_markWord_of_plain hm h
  rw [takeWhile_of_no_comment (no_comment_two hm ha), splitWords_two hm hmne ha hane]

theorem plainLine_two {is : List Instr} {g : Agent} (hev : eventsOfWords w [m, a] = some is)
    (hag : ∀ i ∈ is, agentOf i = g) : PlainLine w (m ++ ' ' :: a) is g := by
  have hws := splitWords_two hm hmne ha hane
  exact ⟨no_comment_two hm ha, fun h => by simpa [hws] using ne_markWord_of_plain hm h, hws ▸ hev, hag⟩

end two

/-! ### Numbers -/

theorem digitChar_facts : ∀ d : Fin 10, plainChar (Nat.digitChar d.val) = true ∧ Nat.digitChar d.val ≠ '-' ∧
    digitOf (Nat.digitChar d.val) = some d.val := by
  decide

theorem digitChars_plain (ds : List (Fin 10)) : (digitChars ds).all plainChar = true := by
  rw [digitChars, List.all_map, List.all_eq_true]
  exact fun d _ => (digitChar_facts d).1

theorem digitChars_ne_nil {ds : List (Fin 10)} (hds : ds ≠ []) : digitChars ds ≠ [] := by
  simpa [digitChars] using hds

theorem decimalFrom_digitChars (ds : List (Fin 10)) (n : Nat) :
    decimalFrom n (digitChars ds) = some (ds.foldl (fun n d => 10 * n + d.val) n) := by
  induction ds generalizing n with
  | nil => rfl
  | cons d ds ih =>
    have hcons : digitChars (d :: ds) = Nat.digitChar d.val :: digitChars ds := rfl
    rw [hcons, decimalFrom, (digitChar_facts d).2.2]
    exact ih _

theorem decimal_digitChars {ds : List (Fin 10)} (hds : ds ≠ []) : decimal (digitChars ds) = some (digitsValue ds) := by
  obtain ⟨d, ds, rfl⟩ := List.exists_cons_of_ne_nil hds
  exact decimalFrom_digitChars (d :: ds) 0

/-- An integer without a sign is its digits. -/
theorem decimalInt_digitChars {ds : List (Fin 10)} (hds : ds ≠ []) :
    decimalInt (digitChars ds) = some (digitsValue ds : Int) := by
  have hdec := decimal_digitChars hds
  obtain ⟨d, ds, rfl⟩ := List.exists_cons_of_ne_nil hds
  have hcons : digitChars (d :: ds) = Nat.digitChar d.val :: digitChars ds := rfl
  rw [hcons] at hdec ⊢
  unfold decimalInt
  split
  next heq => exact absurd (List.cons.inj heq).1 (digitChar_facts d).2.1
  next => rw [hdec]; rfl

theorem decimalInt_intChars (neg : Bool) {ds : List (Fin 10)} (hds : ds ≠ []) :
    decimalInt (intChars neg ds) = some (intValue neg ds) := by
  cases neg with
  | false => exact decimalInt_digitChars hds
  | true =>
    show (decimal (digitChars ds)).map (fun n => -(n : Int)) = _
    rw [decimal_digitChars hds]
    rfl

theorem intChars_plain (neg : Bool) (ds : List (Fin 10)) : (intChars neg ds).all plainChar = true := by
  cases neg with
  | false => exact digitChars_plain ds
  | true => exact digitChars_plain ds

theorem intChars_ne_nil (neg : Bool) {ds : List (Fin 10)} (hds : ds ≠ []) : intChars neg ds ≠ [] := by
  cases neg with
  | false => exact digitChars_ne_nil hds
  | true => exact List.cons_ne_nil _ _

/-! ### The forms of a line -/

theorem eventsOfWords_set {w : Nat} {a : List Char} {v : Int} (ha : decimalInt a = some v) :
    eventsOfWords w [kwSet, a] = if WellFormed w (.set v) then some [.set v] else none := by
  have hset : eventsOfWords w [kwSet, a] = match decimalInt a with
      | some v => if WellFormed w (.set v) then some [.set v] else none
      | none => none := rfl
  rw [hset, ha]

theorem eventsOfWords_sample {w : Nat} {a : List Char} {x : PinSample} (ha : sampleOperand a = some x) :
    eventsOfWords w [kwSample, a] = some [.sample x] := by
  show (sampleOperand a).map (fun x => [Instr.sample x]) = _
  rw [ha]
  rfl

/-- A pseudo-event word with what follows its name (R57). -/
theorem eventsOfWords_detentCw (w : Nat) (rest : List Char) :
    eventsOfWords w [kwDetentCw ++ rest] = (countOf rest).map detentsCw := rfl

theorem eventsOfWords_detentCcw (w : Nat) (rest : List Char) :
    eventsOfWords w [kwDetentCcw ++ rest] = (countOf rest).map detentsCcw := rfl

theorem countOf_star {ds : List (Fin 10)} (hds : ds ≠ []) : countOf ('*' :: digitChars ds) = some (digitsValue ds) :=
  decimal_digitChars hds

theorem agentOf_set (v : Int) : agentOf (.set v) = .host := by
  rw [agentOf, encodeCode]
  rfl

theorem agentOf_sample (x : PinSample) : agentOf (.sample x) = .sampleSource := by
  obtain ⟨clk, dt⟩ := x
  cases clk <;> cases dt <;> rfl

theorem agentOf_samples {xs : List PinSample} : ∀ i ∈ samples xs, agentOf i = .sampleSource := by
  intro i hi
  obtain ⟨x, -, rfl⟩ := List.mem_map.1 hi
  exact agentOf_sample x

theorem agentOf_detentsCw (n : Nat) : ∀ i ∈ detentsCw n, agentOf i = .sampleSource := by
  rw [detentsCw_eq]
  exact agentOf_samples

theorem agentOf_detentsCcw (n : Nat) : ∀ i ∈ detentsCcw n, agentOf i = .sampleSource := by
  rw [detentsCcw_eq]
  exact agentOf_samples

theorem levelDigits_plain (x : PinSample) : (levelDigits x).all plainChar = true := by
  obtain ⟨clk, dt⟩ := x
  cases clk <;> cases dt <;> rfl

theorem sampleOperand_levelDigits (x : PinSample) :
    sampleOperand (levelDigits x) = some x ∧ sampleOperand (['0', 'b'] ++ levelDigits x) = some x := by
  obtain ⟨clk, dt⟩ := x
  cases clk <;> cases dt <;> exact ⟨rfl, rfl⟩

/-- Every line of R56 and R57 is a plain line with its events and its agent. -/
theorem plainLine_of_lineOf {w : Nat} {l : List Char} {is : List Instr} {g : Agent} (h : LineOf w l is g) :
    PlainLine w l is g := by
  cases h with
  | nop => exact plainLine_one rfl (by decide) rfl (by decide)
  | read => exact plainLine_one rfl (by decide) rfl (by decide)
  | angle => exact plainLine_one rfl (by decide) rfl (by decide)
  | reset => exact plainLine_one rfl (by decide) rfl (by decide)
  | state => exact plainLine_one rfl (by decide) rfl (by decide)
  | set neg ds hds hfits =>
    have hev := eventsOfWords_set (w := w) (decimalInt_intChars neg hds)
    rw [if_pos hfits] at hev
    exact plainLine_two (m := kwSet) rfl (by decide) (intChars_plain neg ds) (intChars_ne_nil neg hds) hev
      (fun i hi => by rw [List.mem_singleton.1 hi, agentOf_set])
  | sample x =>
    exact plainLine_two (m := kwSample) rfl (by decide) (levelDigits_plain x) (List.cons_ne_nil _ _)
      (eventsOfWords_sample (sampleOperand_levelDigits x).1) (agentOf_samples (xs := [x]))
  | sampleBinary x =>
    exact plainLine_two (m := kwSample) (a := ['0', 'b'] ++ levelDigits x) rfl (by decide) (levelDigits_plain x)
      (List.cons_ne_nil _ _) (eventsOfWords_sample (sampleOperand_levelDigits x).2) (agentOf_samples (xs := [x]))
  | detentCw => exact plainLine_one rfl (by decide) rfl (agentOf_samples (xs := cwSamples))
  | detentCcw => exact plainLine_one rfl (by decide) rfl (agentOf_samples (xs := ccwSamples))
  | detentsCw ds hds =>
    have hev := eventsOfWords_detentCw w ('*' :: digitChars ds)
    rw [countOf_star hds] at hev
    exact plainLine_one (digitChars_plain ds) (List.cons_ne_nil _ _) hev (agentOf_detentsCw (digitsValue ds))
  | detentsCcw ds hds =>
    have hev := eventsOfWords_detentCcw w ('*' :: digitChars ds)
    rw [countOf_star hds] at hev
    exact plainLine_one (digitChars_plain ds) (List.cons_ne_nil _ _) hev (agentOf_detentsCcw (digitsValue ds))

/-! ### Rejected SETs, and programs -/

theorem wellFormed_set_zero (w : Nat) : WellFormed w (.set 0) = true := by
  have hpos := two_pow_pos w
  simp only [WellFormed, fitsSigned, Bool.and_eq_true, decide_eq_true_eq]
  omega

/-- A SET whose operand does not fit is rejected (R56). It has digits: without any the operand would stand for 0. -/
theorem assembleLine_set_of_not_fits {w : Nat} {neg : Bool} {ds : List (Fin 10)}
    (h : WellFormed w (.set (intValue neg ds)) = false) :
    assembleLine w (['S', 'E', 'T', ' '] ++ intChars neg ds) = none := by
  have hds : ds ≠ [] := by
    rintro rfl
    have hzero : intValue neg [] = 0 := by cases neg <;> rfl
    rw [hzero, wellFormed_set_zero] at h
    cases h
  have hline : assembleLine w (kwSet ++ ' ' :: intChars neg ds) = eventsOfWords w [kwSet, intChars neg ds] :=
    assembleLine_two rfl (by decide) (intChars_plain neg ds) (intChars_ne_nil neg hds)
  refine hline.trans ?_
  rw [eventsOfWords_set (decimalInt_intChars neg hds), h]
  rfl

/-- A program is the events of its lines, one after another. -/
theorem assemble_of_lines {w : Nat} {ls : List (List Char × List Instr)}
    (h : ∀ l ∈ ls, assembleLine w l.1 = some l.2) : assemble w (ls.map (·.1)) = some (ls.flatMap (·.2)) := by
  induction ls with
  | nil => rfl
  | cons l ls ih =>
    rw [List.map_cons, assemble, h l List.mem_cons_self, ih fun x hx => h x (List.mem_cons_of_mem l hx)]
    rfl

/-- Settles O7: every line of R56 and R57 is a plain line, and a program is its lines. -/
theorem assemblerReadsTheEventProgram : Obligations.AssemblerReadsTheEventProgram := by
  refine ⟨fun w l is g h => ?_, fun w neg ds h => assembleLine_set_of_not_fits h, fun w ls h => ?_⟩
  · have hl := plainLine_of_lineOf h
    exact ⟨hl.alone, hl.commented, hl.marked_own, fun _ => hl.marked_other⟩
  · refine assemble_of_lines fun l hl => ?_
    obtain ⟨g, hg⟩ := h l hl
    exact (plainLine_of_lineOf hg).alone

end Sys2Proof.Machine
